-- ==== Sys2Proof/Word.lean ====
section
/-!
DEFINITION. The word types of the core: what the spec adds, shifts and masks as bits
(spec/00_scope.md R10, R8). All values are unsigned.
-/

namespace Sys2Proof

/-- A memory byte, a general register or a timer: 8 bits (spec/10_state.md R22, R31). -/
abbrev Byte := BitVec 8

/-- An instruction word, `I`, `PC` or a stack entry: 16 bits (spec/10_state.md R26, R27, R30). -/
abbrev Word := BitVec 16

/-- One hexadecimal digit of an instruction word (spec/30_encoding.md R91). -/
abbrev Nibble := BitVec 4

/-- The index of a general register, `V0` to `VF` (spec/10_state.md R22). -/
abbrev Reg := BitVec 4

/-- The address immediate `nnn` (spec/30_encoding.md R92). -/
abbrev Addr12 := BitVec 12

/-- The index of `VF`, the only flag (spec/10_state.md R24). -/
abbrev vF : Reg := 0xF#4

/-- The 2048 cells of the display, one 64-bit row for each of the 32 lines (spec/10_state.md R33).
DESIGN CHOICE (log 17), safe: the leftmost column is the row's most significant bit, so that a row
written out reads as the picture; every access goes through `FrameBuffer.cell` and
`FrameBuffer.toggle` of Machine/Ops.lean. -/
abbrev FrameBuffer := Vector (BitVec 64) 32

end Sys2Proof
end

