-- ==== Sys2Proof/Config.lean ====
section
/-!
DEFINITION. The open parameters of spec/00_scope.md R9. Each is an opaque constant with no body: no
proof can see its value, so a theorem about the machine holds for every value of it.
-/

namespace Sys2Proof

/-- P_DECODE: whether the fixed digits of the 0, 5 and 9 groups are checked (spec/30_encoding.md R98). -/
inductive DecodeMode where
  | strict
  | loose
deriving DecidableEq, Repr, Inhabited

/-- P_ALU_READ: which register values the second write of 8xy5, 8xy6, 8xy7 and 8xyE reads when VF
is an operand (spec/42_alu.md R170). -/
inductive AluRead where
  | latched
  | sequential
deriving DecidableEq, Repr, Inhabited

/-- P_DECODE of this machine (log 1). Safe: left free. -/
opaque Config.pDecode : DecodeMode

/-- P_ALU_READ of this machine (log 2). Safe: left free. -/
opaque Config.pAluRead : AluRead

/-- P_FONT: the byte at address `k` for `k` below 80 (log 3). Safe: left free. -/
opaque Config.pFont : Nat → Byte

/-- `RandomByte()`: the byte of the `k`-th draw of Cxnn (spec/42_alu.md R182; log 4). Safe: left free. -/
opaque Config.randomByte : Nat → Byte

end Sys2Proof
end

