-- ==== Sys2Proof/Syntax.lean ====
section
/-!
DEFINITION. The instructions: one constructor for each row of the opcode map of
spec/30_encoding.md R95, with the operand fields of R91. Where P_DECODE = LOOSE lets a digit of the
row vary (R98: op[11:8] in group 0, n in groups 5 and 9), the constructor keeps that digit, so that
an instruction has exactly one word under either value.
-/

namespace Sys2Proof

/-- The 34 instructions (spec/30_encoding.md R95). -/
inductive Instr where
  /-- 00E0, CLS. `d` is op[11:8]. -/
  | cls (d : Nibble)
  /-- 00EE, RET. `d` is op[11:8]. -/
  | ret (d : Nibble)
  /-- 1nnn, JP nnn. -/
  | jp (nnn : Addr12)
  /-- 2nnn, CALL nnn. -/
  | call (nnn : Addr12)
  /-- 3xnn, SE Vx, nn. -/
  | seImm (x : Reg) (nn : Byte)
  /-- 4xnn, SNE Vx, nn. -/
  | sneImm (x : Reg) (nn : Byte)
  /-- 5xy0, SE Vx, Vy. `n` is op[3:0]. -/
  | seReg (x y : Reg) (n : Nibble)
  /-- 6xnn, LD Vx, nn. -/
  | ldImm (x : Reg) (nn : Byte)
  /-- 7xnn, ADD Vx, nn. -/
  | addImm (x : Reg) (nn : Byte)
  /-- 8xy0, LD Vx, Vy. -/
  | ldReg (x y : Reg)
  /-- 8xy1, OR Vx, Vy. -/
  | orReg (x y : Reg)
  /-- 8xy2, AND Vx, Vy. -/
  | andReg (x y : Reg)
  /-- 8xy3, XOR Vx, Vy. -/
  | xorReg (x y : Reg)
  /-- 8xy4, ADD Vx, Vy. -/
  | addReg (x y : Reg)
  /-- 8xy5, SUB Vx, Vy. -/
  | sub (x y : Reg)
  /-- 8xy6, SHR Vx. `y` is encoded and not read. -/
  | shr (x y : Reg)
  /-- 8xy7, SUBN Vx, Vy. -/
  | subn (x y : Reg)
  /-- 8xyE, SHL Vx. `y` is encoded and not read. -/
  | shl (x y : Reg)
  /-- 9xy0, SNE Vx, Vy. `n` is op[3:0]. -/
  | sneReg (x y : Reg) (n : Nibble)
  /-- Annn, LD I, nnn. -/
  | ldI (nnn : Addr12)
  /-- Bnnn, JP V0, nnn. -/
  | jpV0 (nnn : Addr12)
  /-- Cxnn, RND Vx, nn. -/
  | rnd (x : Reg) (nn : Byte)
  /-- Dxyn, DRW Vx, Vy, n. -/
  | drw (x y : Reg) (n : Nibble)
  /-- Ex9E, SKP Vx. -/
  | skp (x : Reg)
  /-- ExA1, SKNP Vx. -/
  | sknp (x : Reg)
  /-- Fx07, LD Vx, DT. -/
  | ldVxDt (x : Reg)
  /-- Fx0A, LD Vx, K. -/
  | ldVxK (x : Reg)
  /-- Fx15, LD DT, Vx. -/
  | ldDtVx (x : Reg)
  /-- Fx18, LD ST, Vx. -/
  | ldStVx (x : Reg)
  /-- Fx1E, ADD I, Vx. -/
  | addI (x : Reg)
  /-- Fx29, LD F, Vx. -/
  | ldF (x : Reg)
  /-- Fx33, LD B, Vx. -/
  | ldB (x : Reg)
  /-- Fx55, LD [I], Vx. -/
  | storeRegs (x : Reg)
  /-- Fx65, LD Vx, [I]. -/
  | loadRegs (x : Reg)
deriving DecidableEq, Repr

end Sys2Proof
end

