-- ==== Sys2Proof/WellFormed.lean ====
section
/-!
DEFINITION. Which instructions have a word under a value of P_DECODE: under STRICT the fixed digits
of 00E0, 00EE, 5xy0 and 9xy0 are 0; under LOOSE they are free (spec/30_encoding.md R98). Every other
constructor is well formed at every operand (R93: all 16 registers are legal; R92: every immediate).
-/

namespace Sys2Proof

/-- The digit of the instruction that the row of R95 fixes at 0 and LOOSE leaves free; 0 where the
row has none. -/
def Instr.freeDigit : Instr → Nibble
  | .cls d => d
  | .ret d => d
  | .seReg _ _ n => n
  | .sneReg _ _ n => n
  | .jp _ | .call _ | .seImm _ _ | .sneImm _ _ | .ldImm _ _ | .addImm _ _ | .ldReg _ _
  | .orReg _ _ | .andReg _ _ | .xorReg _ _ | .addReg _ _ | .sub _ _ | .shr _ _ | .subn _ _
  | .shl _ _ | .ldI _ | .jpV0 _ | .rnd _ _ | .drw _ _ _ | .skp _ | .sknp _ | .ldVxDt _
  | .ldVxK _ | .ldDtVx _ | .ldStVx _ | .addI _ | .ldF _ | .ldB _ | .storeRegs _
  | .loadRegs _ => 0#4

/-- Well-formedness under the value `m` of P_DECODE (spec/30_encoding.md R95, R98). -/
def Instr.wellFormed (m : DecodeMode) (i : Instr) : Bool :=
  i.freeDigit == 0#4 || m == .loose

end Sys2Proof
end

