-- ==== Sys2Proof/Decode.lean ====
section
/-!
DEFINITION. The decoder (spec/30_encoding.md R90 to R98, spec/40_step.md R124), total on every word
and on every byte sequence, and after it the encoder and the opcode map of R95.
-/

namespace Sys2Proof

/-! ### Fields (R91) -/

/-- h, op[15:12]. -/
def fieldH (w : Word) : Nibble := w.extractLsb' 12 4

/-- x, op[11:8]. -/
def fieldX (w : Word) : Nibble := w.extractLsb' 8 4

/-- y, op[7:4]. -/
def fieldY (w : Word) : Nibble := w.extractLsb' 4 4

/-- n, op[3:0]. -/
def fieldN (w : Word) : Nibble := w.extractLsb' 0 4

/-- nn, op[7:0]. -/
def fieldNN (w : Word) : Byte := w.extractLsb' 0 8

/-- nnn, op[11:0]. -/
def fieldNNN (w : Word) : Addr12 := w.extractLsb' 0 12

/-! ### Decoding -/

/-- A row whose digit `d` the opcode map fixes at 0: under STRICT it matches only `d = 0`, under
LOOSE every `d` (R98). The digit is looked at first, so that a word on which the two values agree is
decoded without the parameter. -/
def fixedDigit (m : DecodeMode) (d : Nibble) (i : Instr) : Option Instr :=
  if d = 0#4 then some i
  else match m with
    | .strict => none
    | .loose => some i

/-- Group 8, selected on n (R94, R95). -/
def decodeGroup8 (w : Word) : Option Instr :=
  match fieldN w with
  | 0x0#4 => some (.ldReg (fieldX w) (fieldY w))
  | 0x1#4 => some (.orReg (fieldX w) (fieldY w))
  | 0x2#4 => some (.andReg (fieldX w) (fieldY w))
  | 0x3#4 => some (.xorReg (fieldX w) (fieldY w))
  | 0x4#4 => some (.addReg (fieldX w) (fieldY w))
  | 0x5#4 => some (.sub (fieldX w) (fieldY w))
  | 0x6#4 => some (.shr (fieldX w) (fieldY w))
  | 0x7#4 => some (.subn (fieldX w) (fieldY w))
  | 0xE#4 => some (.shl (fieldX w) (fieldY w))
  | _ => none

/-- Group E, selected on nn (R94, R95). -/
def decodeGroupE (w : Word) : Option Instr :=
  match fieldNN w with
  | 0x9E#8 => some (.skp (fieldX w))
  | 0xA1#8 => some (.sknp (fieldX w))
  | _ => none

/-- Group F, selected on nn (R94, R95). -/
def decodeGroupF (w : Word) : Option Instr :=
  match fieldNN w with
  | 0x07#8 => some (.ldVxDt (fieldX w))
  | 0x0A#8 => some (.ldVxK (fieldX w))
  | 0x15#8 => some (.ldDtVx (fieldX w))
  | 0x18#8 => some (.ldStVx (fieldX w))
  | 0x1E#8 => some (.addI (fieldX w))
  | 0x29#8 => some (.ldF (fieldX w))
  | 0x33#8 => some (.ldB (fieldX w))
  | 0x55#8 => some (.storeRegs (fieldX w))
  | 0x65#8 => some (.loadRegs (fieldX w))
  | _ => none

/-- Group 0, selected on nn, with op[11:8] the digit that STRICT checks (R94, R98). -/
def decodeGroup0 (m : DecodeMode) (w : Word) : Option Instr :=
  match fieldNN w with
  | 0xE0#8 => fixedDigit m (fieldX w) (.cls (fieldX w))
  | 0xEE#8 => fixedDigit m (fieldX w) (.ret (fieldX w))
  | _ => none

/-- `Decode(op, P_DECODE)` (spec/40_step.md R124): one row of R95, or `none` for a word that
matches no row, which the step runs as a no-op (R96). -/
def decodeWith (m : DecodeMode) (w : Word) : Option Instr :=
  match fieldH w with
  | 0x0#4 => decodeGroup0 m w
  | 0x1#4 => some (.jp (fieldNNN w))
  | 0x2#4 => some (.call (fieldNNN w))
  | 0x3#4 => some (.seImm (fieldX w) (fieldNN w))
  | 0x4#4 => some (.sneImm (fieldX w) (fieldNN w))
  | 0x5#4 => fixedDigit m (fieldN w) (.seReg (fieldX w) (fieldY w) (fieldN w))
  | 0x6#4 => some (.ldImm (fieldX w) (fieldNN w))
  | 0x7#4 => some (.addImm (fieldX w) (fieldNN w))
  | 0x8#4 => decodeGroup8 w
  | 0x9#4 => fixedDigit m (fieldN w) (.sneReg (fieldX w) (fieldY w) (fieldN w))
  | 0xA#4 => some (.ldI (fieldNNN w))
  | 0xB#4 => some (.jpV0 (fieldNNN w))
  | 0xC#4 => some (.rnd (fieldX w) (fieldNN w))
  | 0xD#4 => some (.drw (fieldX w) (fieldY w) (fieldN w))
  | 0xE#4 => decodeGroupE w
  | 0xF#4 => decodeGroupF w
  | _ => none

/-- P_DECODE of this machine (log 1). -/
def decodeMode : DecodeMode := Config.pDecode

/-- The decoder of this machine. -/
def decode (w : Word) : Option Instr := decodeWith decodeMode w

/-- Big-endian: the byte at the lower address is bits 15 to 8 (spec/20_memory.md R65). -/
def wordOfBytes (hi lo : Byte) : Word := hi ++ lo

/-- The two bytes of a word in memory order (spec/20_memory.md R65). -/
def bytesOfWord (w : Word) : List Byte := [w.extractLsb' 8 8, w.extractLsb' 0 8]

/-- What the decoder answers on a byte sequence. -/
inductive Decoded where
  /-- An instruction, and the bytes after its word. -/
  | instr (i : Instr) (rest : List Byte)
  /-- The word matches no row: a no-op, not an error (R96). -/
  | unmatched (w : Word) (rest : List Byte)
  /-- Fewer than two bytes: no word at all. -/
  | truncated
deriving DecidableEq, Repr

/-- Decoding always consumes exactly two bytes (R90, R100). -/
def decodeBytesWith (m : DecodeMode) : List Byte → Decoded
  | hi :: lo :: rest =>
    match decodeWith m (wordOfBytes hi lo) with
    | some i => .instr i rest
    | none => .unmatched (wordOfBytes hi lo) rest
  | _ => .truncated

/-- The instruction the decoder reads from a word numbered as spec/opcode_table.json numbers it. -/
def decodeTableWord (nbits w : Nat) : Option Instr :=
  match decodeBytesWith decodeMode (bytesOfWord (BitVec.ofNat 16 (w % 2 ^ nbits))) with
  | .instr i _ => some i
  | .unmatched _ _ => none
  | .truncated => none

/-! ### Encoding (R95) -/

/-- The word of an instruction, written from the patterns of R95. -/
def encode : Instr → Word
  | .cls d => 0x0#4 ++ d ++ 0xE0#8
  | .ret d => 0x0#4 ++ d ++ 0xEE#8
  | .jp nnn => 0x1#4 ++ nnn
  | .call nnn => 0x2#4 ++ nnn
  | .seImm x nn => 0x3#4 ++ x ++ nn
  | .sneImm x nn => 0x4#4 ++ x ++ nn
  | .seReg x y n => 0x5#4 ++ x ++ (y ++ n)
  | .ldImm x nn => 0x6#4 ++ x ++ nn
  | .addImm x nn => 0x7#4 ++ x ++ nn
  | .ldReg x y => 0x8#4 ++ x ++ (y ++ 0x0#4)
  | .orReg x y => 0x8#4 ++ x ++ (y ++ 0x1#4)
  | .andReg x y => 0x8#4 ++ x ++ (y ++ 0x2#4)
  | .xorReg x y => 0x8#4 ++ x ++ (y ++ 0x3#4)
  | .addReg x y => 0x8#4 ++ x ++ (y ++ 0x4#4)
  | .sub x y => 0x8#4 ++ x ++ (y ++ 0x5#4)
  | .shr x y => 0x8#4 ++ x ++ (y ++ 0x6#4)
  | .subn x y => 0x8#4 ++ x ++ (y ++ 0x7#4)
  | .shl x y => 0x8#4 ++ x ++ (y ++ 0xE#4)
  | .sneReg x y n => 0x9#4 ++ x ++ (y ++ n)
  | .ldI nnn => 0xA#4 ++ nnn
  | .jpV0 nnn => 0xB#4 ++ nnn
  | .rnd x nn => 0xC#4 ++ x ++ nn
  | .drw x y n => 0xD#4 ++ x ++ (y ++ n)
  | .skp x => 0xE#4 ++ x ++ 0x9E#8
  | .sknp x => 0xE#4 ++ x ++ 0xA1#8
  | .ldVxDt x => 0xF#4 ++ x ++ 0x07#8
  | .ldVxK x => 0xF#4 ++ x ++ 0x0A#8
  | .ldDtVx x => 0xF#4 ++ x ++ 0x15#8
  | .ldStVx x => 0xF#4 ++ x ++ 0x18#8
  | .addI x => 0xF#4 ++ x ++ 0x1E#8
  | .ldF x => 0xF#4 ++ x ++ 0x29#8
  | .ldB x => 0xF#4 ++ x ++ 0x33#8
  | .storeRegs x => 0xF#4 ++ x ++ 0x55#8
  | .loadRegs x => 0xF#4 ++ x ++ 0x65#8

/-! ### The opcode map as masks and matches (R95) -/

/-- One row of the opcode map of R95. -/
structure OpcodeRow where
  mask : Word
  bits : Word
deriving DecidableEq, Repr

/-- Whether a word matches the row. -/
def OpcodeRow.covers (r : OpcodeRow) (w : Word) : Bool := w &&& r.mask == r.bits

/-- The row of R95 an instruction belongs to. -/
def Instr.row : Instr → OpcodeRow
  | .cls _ => ⟨0xFFFF#16, 0x00E0#16⟩
  | .ret _ => ⟨0xFFFF#16, 0x00EE#16⟩
  | .jp _ => ⟨0xF000#16, 0x1000#16⟩
  | .call _ => ⟨0xF000#16, 0x2000#16⟩
  | .seImm _ _ => ⟨0xF000#16, 0x3000#16⟩
  | .sneImm _ _ => ⟨0xF000#16, 0x4000#16⟩
  | .seReg _ _ _ => ⟨0xF00F#16, 0x5000#16⟩
  | .ldImm _ _ => ⟨0xF000#16, 0x6000#16⟩
  | .addImm _ _ => ⟨0xF000#16, 0x7000#16⟩
  | .ldReg _ _ => ⟨0xF00F#16, 0x8000#16⟩
  | .orReg _ _ => ⟨0xF00F#16, 0x8001#16⟩
  | .andReg _ _ => ⟨0xF00F#16, 0x8002#16⟩
  | .xorReg _ _ => ⟨0xF00F#16, 0x8003#16⟩
  | .addReg _ _ => ⟨0xF00F#16, 0x8004#16⟩
  | .sub _ _ => ⟨0xF00F#16, 0x8005#16⟩
  | .shr _ _ => ⟨0xF00F#16, 0x8006#16⟩
  | .subn _ _ => ⟨0xF00F#16, 0x8007#16⟩
  | .shl _ _ => ⟨0xF00F#16, 0x800E#16⟩
  | .sneReg _ _ _ => ⟨0xF00F#16, 0x9000#16⟩
  | .ldI _ => ⟨0xF000#16, 0xA000#16⟩
  | .jpV0 _ => ⟨0xF000#16, 0xB000#16⟩
  | .rnd _ _ => ⟨0xF000#16, 0xC000#16⟩
  | .drw _ _ _ => ⟨0xF000#16, 0xD000#16⟩
  | .skp _ => ⟨0xF0FF#16, 0xE09E#16⟩
  | .sknp _ => ⟨0xF0FF#16, 0xE0A1#16⟩
  | .ldVxDt _ => ⟨0xF0FF#16, 0xF007#16⟩
  | .ldVxK _ => ⟨0xF0FF#16, 0xF00A#16⟩
  | .ldDtVx _ => ⟨0xF0FF#16, 0xF015#16⟩
  | .ldStVx _ => ⟨0xF0FF#16, 0xF018#16⟩
  | .addI _ => ⟨0xF0FF#16, 0xF01E#16⟩
  | .ldF _ => ⟨0xF0FF#16, 0xF029#16⟩
  | .ldB _ => ⟨0xF0FF#16, 0xF033#16⟩
  | .storeRegs _ => ⟨0xF0FF#16, 0xF055#16⟩
  | .loadRegs _ => ⟨0xF0FF#16, 0xF065#16⟩

/-- The 34 rows in the order of R95. -/
def opcodeMap : List OpcodeRow :=
  [⟨0xFFFF#16, 0x00E0#16⟩, ⟨0xFFFF#16, 0x00EE#16⟩, ⟨0xF000#16, 0x1000#16⟩, ⟨0xF000#16, 0x2000#16⟩, ⟨0xF000#16, 0x3000#16⟩,
   ⟨0xF000#16, 0x4000#16⟩, ⟨0xF00F#16, 0x5000#16⟩, ⟨0xF000#16, 0x6000#16⟩, ⟨0xF000#16, 0x7000#16⟩] ++
  [⟨0xF00F#16, 0x8000#16⟩, ⟨0xF00F#16, 0x8001#16⟩, ⟨0xF00F#16, 0x8002#16⟩, ⟨0xF00F#16, 0x8003#16⟩, ⟨0xF00F#16, 0x8004#16⟩,
   ⟨0xF00F#16, 0x8005#16⟩, ⟨0xF00F#16, 0x8006#16⟩, ⟨0xF00F#16, 0x8007#16⟩, ⟨0xF00F#16, 0x800E#16⟩] ++
  [⟨0xF00F#16, 0x9000#16⟩, ⟨0xF000#16, 0xA000#16⟩, ⟨0xF000#16, 0xB000#16⟩, ⟨0xF000#16, 0xC000#16⟩, ⟨0xF000#16, 0xD000#16⟩] ++
  [⟨0xF0FF#16, 0xE09E#16⟩, ⟨0xF0FF#16, 0xE0A1#16⟩, ⟨0xF0FF#16, 0xF007#16⟩, ⟨0xF0FF#16, 0xF00A#16⟩, ⟨0xF0FF#16, 0xF015#16⟩,
   ⟨0xF0FF#16, 0xF018#16⟩, ⟨0xF0FF#16, 0xF01E#16⟩, ⟨0xF0FF#16, 0xF029#16⟩, ⟨0xF0FF#16, 0xF033#16⟩, ⟨0xF0FF#16, 0xF055#16⟩,
   ⟨0xF0FF#16, 0xF065#16⟩]

end Sys2Proof
end

