-- ==== Sys2Proof/Machine/State.lean ====
section
/-!
DEFINITION. The state of the core (spec/10_state.md R20) as plain data, its reset value (R40), and
the reasons a transaction can stop.
-/

namespace Sys2Proof.Machine

/-- The kinds of fault a step latches (spec/60_exceptions.md R280, codes 2 to 5). Each one is a next
state with `State.fault` set, never a stop of the model. -/
inductive StepFault where
  /-- 2nnn with SP = 16. -/
  | stackOverflow
  /-- 00EE with SP = 0. -/
  | stackUnderflow
  /-- Ex9E or ExA1 with Vx above 15. -/
  | invalidKeyIndex
  /-- A fetch, or a data access of Dxyn, Fx33, Fx55 or Fx65, that reaches 4096 or more. -/
  | memoryOutOfBounds
deriving DecidableEq, Repr

/-- What the latch FAULT records (spec/10_state.md R35, spec/60_exceptions.md R281): `opcode` is
`none` when the fetch itself failed. -/
structure FaultRecord where
  kind : StepFault
  opcode : Option Word
  addr : Word
deriving DecidableEq, Repr

/-- Bytes of memory by address. Canonical form: `Memory.wf` of Machine/Ops.lean (log 14). -/
abbrev Memory := List Host.Cell

/-- The state of the core (spec/10_state.md R20). -/
structure State where
  /-- M, 4096 bytes; an address with no entry reads as it did at reset (spec/20_memory.md R60). -/
  mem : Memory
  /-- V0 to VF (spec/10_state.md R22). -/
  v : Vector Byte 16
  /-- I (R26). -/
  ireg : Word
  /-- PC (R27). -/
  pc : Word
  /-- SP (R29). -/
  sp : Byte
  /-- STACK (R30). -/
  stack : Vector Word 16
  /-- DT (R31). -/
  dt : Byte
  /-- ST (R31). -/
  st : Byte
  /-- FB (R33). -/
  fb : FrameBuffer
  /-- KEY (R34). -/
  key : Vector Bool 16
  /-- FAULT (R35). -/
  fault : Option FaultRecord
  /-- THE MODEL'S OWN, not the spec's: how many random bytes have been drawn (log 4). -/
  draws : Nat
deriving DecidableEq, Repr

/-- The machine right after Reset (spec/10_state.md R40, spec/70_reset_and_hazards.md R320). `draws`
is the model's own and its value here a DESIGN CHOICE (log 4). -/
def State.reset : State where
  mem := []
  v := Vector.replicate 16 0
  ireg := 0
  pc := 0x200
  sp := 0
  stack := Vector.replicate 16 0
  dt := 0
  st := 0
  fb := Vector.replicate 32 0
  key := Vector.replicate 16 false
  fault := none
  draws := 0

/-- Why a transaction of the model can stop with no next state. The faults the spec describes for a
step are not here: a step takes them (`StepFault`). -/
inductive Fault where
  /-- SP is 17 to 255 at CALL, or 17 or more at RET, states the spec says "are never reached"
  (spec/10_state.md R29) and gives no meaning. Raised by `execCall` and `execRet`. Safe (log 10). -/
  | stackPointerOutOfRange
  /-- RomTooLarge, code 1 of spec/60_exceptions.md R280: "load-time, non-fatal to the process but
  aborts the run". Raised by the arbiter (`Session.apply`) when `loadRom` answers so, never by a step.
  Safe (log 13). -/
  | romTooLarge
deriving DecidableEq, Repr

/-- Why the model gives a transaction no meaning. -/
inductive Refusal where
  /-- An instruction with no meaning yet, raised by an arm of `exec`. No arm raises it. Safe. -/
  | notModelled (mnemonic : String)
  /-- A second Load, or a Load after a Step: "is not modelled and a model refuses it"
  (spec/70_reset_and_hazards.md R323). Raised by the arbiter (`Session.apply`). Safe (log 12). -/
  | loadAfterStart
deriving DecidableEq, Repr

/-- The outcome of a step or of an instruction. -/
abbrev Result := Host.Outcome State Fault Refusal

end Sys2Proof.Machine
end

