-- ==== Sys2Proof/Machine/Ops.lean ====
section
/-!
DEFINITION. The named operations over registers, memory, display and keypad; taking a fault; the
fetch. Every meaning reads and writes the state through these.
-/

namespace Sys2Proof.Machine

/-! ### General registers (spec/10_state.md R22) -/

/-- V[x]. -/
def State.getV (s : State) (x : Reg) : Byte := s.v[x.toNat]'(x.isLt)

/-- V[x] <- b. -/
def State.setV (s : State) (x : Reg) (b : Byte) : State :=
  { s with v := s.v.set x.toNat b x.isLt }

/-- V[k] <- the k-th byte, for a list of bytes that starts at register `k` and ascends. -/
def State.setVs (s : State) (k : Nat) : List Byte → State
  | [] => s
  | b :: bs => (s.setV (BitVec.ofNat 4 k) b).setVs (k + 1) bs

/-- V[0] to V[x], in ascending order. -/
def State.firstVs (s : State) (x : Reg) : List Byte :=
  (List.range (x.toNat + 1)).map fun k => s.getV (BitVec.ofNat 4 k)

/-! ### Program counter (spec/40_step.md R123, spec/10_state.md R28: every PC write is trunc16) -/

/-- PC <- trunc16(PC + 2): the pre-advance of a step, and a skip's extra advance. -/
def State.advance (s : State) : State := { s with pc := s.pc + 2#16 }

/-- PC <- trunc16(PC - 2): the rewind of Fx0A. -/
def State.rewind (s : State) : State := { s with pc := s.pc - 2#16 }

/-- PC <- target. -/
def State.jump (s : State) (target : Word) : State := { s with pc := target }

/-! ### Memory (spec/20_memory.md) -/

/-- P_FONT of this machine (log 3). -/
def fontByte (k : Nat) : Byte := Config.pFont k

/-- What an address with no entry reads as: the reset contents, the font at 0x000 to 0x04F and 0x00
elsewhere (spec/10_state.md R40, spec/20_memory.md R61). -/
def Memory.background (a : Nat) : Byte := if a < 80 then fontByte a else 0#8

/-- The byte at an address. -/
def Memory.read : Memory → Nat → Byte
  | [], a => Memory.background a
  | (b, w) :: m, a => if b = a then w else Memory.read m a

/-- Put an entry at its place in a list that rises by address. -/
def Memory.insert (a : Nat) (w : Byte) : Memory → Memory
  | [] => [(a, w)]
  | c :: m => if a < c.1 then (a, w) :: c :: m else c :: Memory.insert a w m

/-- Set the byte at an address. An address with the value it had at reset has no entry. There is no
byte at 4096 or above (R60), and no meaning asks for one: each checks its range first (R63). -/
def Memory.write (m : Memory) (a : Nat) (w : Byte) : Memory :=
  if a < 4096 then
    if w = Memory.background a then m.filter (fun c => c.1 != a)
    else Memory.insert a w (m.filter (fun c => c.1 != a))
  else m

/-- The canonical form: addresses strictly rising, all below 4096, and no entry equal to what the
address reads as without it. -/
abbrev Memory.wf (m : Memory) : Prop :=
  m.Pairwise (fun p q => p.1 < q.1) ∧ ∀ c ∈ m, c.1 < 4096 ∧ c.2 ≠ Memory.background c.1

/-- Write bytes at ascending addresses from `a`. -/
def Memory.writeBytes (m : Memory) (a : Nat) : List Byte → Memory
  | [] => m
  | w :: ws => Memory.writeBytes (m.write a w) (a + 1) ws

/-- MemRead(a, 1) (spec/00_scope.md R12). -/
def State.byteAt (s : State) (a : Nat) : Byte := s.mem.read a

/-- The bytes at `a` to `a + n - 1`. -/
def State.bytesAt (s : State) (a n : Nat) : List Byte := (List.range n).map fun k => s.byteAt (a + k)

/-- MemWrite at ascending addresses from `a`. -/
def State.storeBytes (s : State) (a : Nat) (ws : List Byte) : State :=
  { s with mem := s.mem.writeBytes a ws }

/-- Whether the `n` bytes from `a` all exist; addresses are computed without wrap, and an empty range
makes no access (spec/20_memory.md R63, spec/44_display.md R231). -/
def inMemory (a n : Nat) : Bool := n == 0 || decide (a + n ≤ 4096)

/-! ### Taking a fault (spec/40_step.md R125, spec/60_exceptions.md R281 to R284) -/

/-- `raise Fault(kind)` from instruction `i` in the state before its step: nothing changes but FAULT,
which records the kind, the opcode and the address a = PC; PC stays a. There is no return: only Reset
clears FAULT (R284). -/
def takeFault (kind : StepFault) (i : Instr) (s : State) : Result :=
  .next { s with fault := some ⟨kind, some (encode i), s.pc⟩ }

/-- The fetch's own fault: as `takeFault`, with no opcode (spec/40_step.md R122). -/
def takeFetchFault (s : State) : Result :=
  .next { s with fault := some ⟨.memoryOutOfBounds, none, s.pc⟩ }

/-! ### The fetch (spec/40_step.md R122, spec/20_memory.md R63, R65, R76) -/

/-- The word at PC and PC + 1, or `none` where the second byte does not exist. -/
def fetch (s : State) : Option Word :=
  if s.pc.toNat + 1 < 4096 then
    some (wordOfBytes (s.byteAt s.pc.toNat) (s.byteAt (s.pc.toNat + 1)))
  else none

/-- A word that matches no row: the advance and nothing else (spec/30_encoding.md R96). -/
def noMatch (s : State) : Result := .next s.advance

/-- A step of a halted core returns without effect (spec/60_exceptions.md R286). -/
def halted (s : State) : Result := .next s

/-! ### Display (spec/10_state.md R33) -/

/-- The cell of column `px` and row `py`; there is none outside the grid. -/
def FrameBuffer.cell (fb : FrameBuffer) (px py : Nat) : Bool :=
  if h : py < 32 then fb[py].getMsbD px else false

/-- FB[i], row-major: i = py * 64 + px. -/
def FrameBuffer.flat (fb : FrameBuffer) (i : Nat) : Bool := FrameBuffer.cell fb (i % 64) (i / 64)

/-- FB[i] <- FB[i] ^ 1 at column `px` and row `py`. -/
def FrameBuffer.toggle (fb : FrameBuffer) (px py : Nat) : FrameBuffer :=
  if h : py < 32 then fb.set py (fb[py] ^^^ BitVec.twoPow 64 (63 - px)) else fb

/-- Every cell 0. -/
def FrameBuffer.clear : FrameBuffer := Vector.replicate 32 0#64

/-! ### Keypad (spec/10_state.md R34) -/

/-- KEY[k]. -/
def State.getKey (s : State) (k : Fin 16) : Bool := s.key[k]

/-- KEY[k] <- b. -/
def State.setKey (s : State) (k : Fin 16) (b : Bool) : State := { s with key := s.key.set k b }

/-- The lowest pressed key: the scan of Fx0A, low to high (spec/45_keys_timers.md R253). -/
def firstPressed (s : State) : Option (Fin 16) := (List.finRange 16).find? s.getKey

/-! ### Random source (spec/10_state.md R36, spec/42_alu.md R182) -/

/-- The byte the next draw returns: a free value (log 4). -/
def State.drawnByte (s : State) : Byte := Config.randomByte s.draws

/-- One draw is consumed. -/
def State.consumeDraw (s : State) : State := { s with draws := s.draws + 1 }

end Sys2Proof.Machine
end

