-- ==== Sys2Proof/Machine/Operands.lean ====
section
/-!
DEFINITION. The operand forms: immediates widened (spec/30_encoding.md R92), the key index of a
register (spec/45_keys_timers.md R250), the slot the stack pointer names (spec/10_state.md R30), and
the register reads of a second write (spec/42_alu.md R170).
-/

namespace Sys2Proof.Machine

/-- zext_16(nnn) (spec/30_encoding.md R92). -/
def zextAddr (nnn : Addr12) : Word := nnn.setWidth 16

/-- An 8-bit value as an unsigned 16-bit one. -/
def zextByte (b : Byte) : Word := b.setWidth 16

/-- The key a register's value names; `none` above 15 (spec/45_keys_timers.md R250). -/
def keyIndex (b : Byte) : Option (Fin 16) :=
  if h : b.toNat < 16 then some ⟨b.toNat, h⟩ else none

/-- The STACK entry a value of SP names; `none` where there is none (spec/10_state.md R30). -/
def stackSlot (sp : Byte) : Option (Fin 16) :=
  if h : sp.toNat < 16 then some ⟨sp.toNat, h⟩ else none

/-- P_ALU_READ of this machine (log 2). -/
def aluReadMode : AluRead := Config.pAluRead

/-- The operand V[x] that the second write of 8xy5, 8xy6, 8xy7 or 8xyE reads, where `vx` is its value
before the instruction and `f` the flag written first (spec/42_alu.md R170). The two readings differ
only for VF, so the parameter is looked at only there. -/
def secondRead (m : AluRead) (x : Reg) (vx f : Byte) : Byte :=
  if x = vF then
    match m with
    | .latched => vx
    | .sequential => f
  else vx

end Sys2Proof.Machine
end

