-- ==== Sys2Proof/Machine/Flags.lean ====
section
/-!
DEFINITION. Every value VF takes as a flag (spec/10_state.md R24): a byte that is 0 or 1.
-/

namespace Sys2Proof.Machine

/-- A condition as a flag byte. -/
def flagByte (c : Bool) : Byte := if c then 1#8 else 0#8

/-- 8xy4: 1 exactly when the unsigned sum of the values before the instruction exceeds 255
(spec/42_alu.md R177, spec/90_conflicts.md C1). -/
def carryFlag (vx vy : Byte) : Byte := flagByte (decide (vx.toNat + vy.toNat > 255))

/-- 8xy5 with (vx, vy) and 8xy7 with (vy, vx): 1 when there is no borrow (R178, R180). -/
def notBorrowFlag (p q : Byte) : Byte := flagByte (decide (p.toNat ≥ q.toNat))

/-- 8xy6: the bit shifted out at bit 0 (R179). -/
def shrFlag (vx : Byte) : Byte := vx &&& 1#8

/-- 8xyE: the bit shifted out at bit 7 (R181). -/
def shlFlag (vx : Byte) : Byte := (vx >>> 7) &&& 1#8

end Sys2Proof.Machine
end

