-- ==== Sys2Proof/Machine/Flow.lean ====
section
/-!
DEFINITION. Control transfer and skips (spec/41_flow.md). A meaning runs in the state before its
step, with PC = a, and makes the step's advance itself (spec/40_step.md R123).
-/

namespace Sys2Proof.Machine

/-- 00EE, RET (R140). SP above 16 is never reached and has no meaning (log 10). -/
def execRet (d : Nibble) (s : State) : Result :=
  if s.sp = 0#8 then takeFault .stackUnderflow (.ret d) s
  else match stackSlot (s.sp - 1#8) with
    | some k => .next ({ s.advance with sp := s.sp - 1#8 }.jump s.stack[k])
    | none => .fault .stackPointerOutOfRange

/-- 1nnn, JP nnn (R141). -/
def execJp (nnn : Addr12) (s : State) : Result := .next (s.advance.jump (zextAddr nnn))

/-- 2nnn, CALL nnn (R142): the advanced PC is pushed. SP above 16 is never reached and has no
meaning (log 10). -/
def execCall (nnn : Addr12) (s : State) : Result :=
  if s.sp = 16#8 then takeFault .stackOverflow (.call nnn) s
  else match stackSlot s.sp with
    | some k =>
      .next ({ s.advance with stack := s.stack.set k s.advance.pc, sp := s.sp + 1#8 }.jump
        (zextAddr nnn))
    | none => .fault .stackPointerOutOfRange

/-- The next instruction is passed where the condition holds: exactly 2 bytes, whatever they are
(spec/30_encoding.md R100). -/
def skipIf (c : Bool) (s : State) : Result :=
  .next (if c then s.advance.advance else s.advance)

/-- 3xnn, SE Vx, nn (R143). -/
def execSeImm (x : Reg) (nn : Byte) (s : State) : Result := skipIf (s.getV x == nn) s

/-- 4xnn, SNE Vx, nn (R144). -/
def execSneImm (x : Reg) (nn : Byte) (s : State) : Result := skipIf (s.getV x != nn) s

/-- 5xy0, SE Vx, Vy (R145). -/
def execSeReg (x y : Reg) (s : State) : Result := skipIf (s.getV x == s.getV y) s

/-- 9xy0, SNE Vx, Vy (R146). -/
def execSneReg (x y : Reg) (s : State) : Result := skipIf (s.getV x != s.getV y) s

/-- Bnnn, JP V0, nnn (R147): the sum is not reduced modulo 4096. -/
def execJpV0 (nnn : Addr12) (s : State) : Result :=
  .next (s.advance.jump (zextAddr nnn + zextByte (s.getV 0)))

end Sys2Proof.Machine
end

