-- ==== Sys2Proof/Machine/Alu.lean ====
section
/-!
DEFINITION. Register loads, arithmetic, logic, shifts and random (spec/42_alu.md). None can fault.
Where an instruction writes a result and a flag, the order of the two writes is the rule's own
(spec/10_state.md R25).
-/

namespace Sys2Proof.Machine

/-- 6xnn, LD Vx, nn (R171). -/
def execLdImm (x : Reg) (nn : Byte) (s : State) : Result := .next (s.advance.setV x nn)

/-- 7xnn, ADD Vx, nn (R172): no flag. -/
def execAddImm (x : Reg) (nn : Byte) (s : State) : Result :=
  .next (s.advance.setV x (s.getV x + nn))

/-- 8xy0, LD Vx, Vy (R173). -/
def execLdReg (x y : Reg) (s : State) : Result := .next (s.advance.setV x (s.getV y))

/-- 8xy1, OR Vx, Vy (R174). -/
def execOr (x y : Reg) (s : State) : Result := .next (s.advance.setV x (s.getV x ||| s.getV y))

/-- 8xy2, AND Vx, Vy (R175). -/
def execAnd (x y : Reg) (s : State) : Result := .next (s.advance.setV x (s.getV x &&& s.getV y))

/-- 8xy3, XOR Vx, Vy (R176). -/
def execXor (x y : Reg) (s : State) : Result := .next (s.advance.setV x (s.getV x ^^^ s.getV y))

/-- 8xy4, ADD Vx, Vy (R177): the flag is written last. -/
def execAddReg (x y : Reg) (s : State) : Result :=
  .next ((s.advance.setV x (s.getV x + s.getV y)).setV vF (carryFlag (s.getV x) (s.getV y)))

/-- VF <- f, then V[x] <- r: the order of 8xy5, 8xy6, 8xy7 and 8xyE (R170). -/
def flagThenResult (x : Reg) (f r : Byte) (s : State) : Result :=
  .next ((s.advance.setV vF f).setV x r)

/-- 8xy5 under a value of P_ALU_READ (R170, R178). -/
def execSubWith (m : AluRead) (x y : Reg) (s : State) : Result :=
  let f := notBorrowFlag (s.getV x) (s.getV y)
  flagThenResult x f (secondRead m x (s.getV x) f - secondRead m y (s.getV y) f) s

/-- 8xy5, SUB Vx, Vy (R178). -/
def execSub (x y : Reg) (s : State) : Result := execSubWith aluReadMode x y s

/-- 8xy6 under a value of P_ALU_READ (R170, R179): a logical shift of Vx; Vy is not read. -/
def execShrWith (m : AluRead) (x : Reg) (s : State) : Result :=
  let f := shrFlag (s.getV x)
  flagThenResult x f (secondRead m x (s.getV x) f >>> 1) s

/-- 8xy6, SHR Vx (R179). -/
def execShr (x : Reg) (s : State) : Result := execShrWith aluReadMode x s

/-- 8xy7 under a value of P_ALU_READ (R170, R180). -/
def execSubnWith (m : AluRead) (x y : Reg) (s : State) : Result :=
  let f := notBorrowFlag (s.getV y) (s.getV x)
  flagThenResult x f (secondRead m y (s.getV y) f - secondRead m x (s.getV x) f) s

/-- 8xy7, SUBN Vx, Vy (R180). -/
def execSubn (x y : Reg) (s : State) : Result := execSubnWith aluReadMode x y s

/-- 8xyE under a value of P_ALU_READ (R170, R181): Vy is not read. -/
def execShlWith (m : AluRead) (x : Reg) (s : State) : Result :=
  let f := shlFlag (s.getV x)
  flagThenResult x f (secondRead m x (s.getV x) f <<< 1) s

/-- 8xyE, SHL Vx (R181). -/
def execShl (x : Reg) (s : State) : Result := execShlWith aluReadMode x s

/-- Cxnn, RND Vx, nn (R182): one draw, consumed whatever nn is. -/
def execRnd (x : Reg) (nn : Byte) (s : State) : Result :=
  .next (s.advance.consumeDraw.setV x (s.drawnByte &&& nn))

end Sys2Proof.Machine
end

