-- ==== Sys2Proof/Machine/IndexMemory.lean ====
section
/-!
DEFINITION. The index register and memory transfers (spec/43_index_memory.md). The whole address
range is checked, without wrap, before anything is written (spec/20_memory.md R63).
-/

namespace Sys2Proof.Machine

/-- Annn, LD I, nnn (R200). -/
def execLdI (nnn : Addr12) (s : State) : Result := .next { s.advance with ireg := zextAddr nnn }

/-- Fx1E, ADD I, Vx (R201): modulo 65536, no flag. -/
def execAddI (x : Reg) (s : State) : Result :=
  .next { s.advance with ireg := s.ireg + zextByte (s.getV x) }

/-- Fx29, LD F, Vx (R202): Vx * 5, not reduced to a nibble. -/
def execLdF (x : Reg) (s : State) : Result :=
  .next { s.advance with ireg := zextByte (s.getV x) * 5#16 }

/-- Hundreds, tens and ones of a byte (R203). -/
def bcdDigits (b : Byte) : List Byte := [b / 100#8, (b / 10#8) % 10#8, b % 10#8]

/-- Fx33, LD B, Vx (R203). -/
def execLdB (x : Reg) (s : State) : Result :=
  if inMemory s.ireg.toNat 3 then
    .next (s.advance.storeBytes s.ireg.toNat (bcdDigits (s.getV x)))
  else takeFault .memoryOutOfBounds (.ldB x) s

/-- Fx55, LD [I], Vx (R204). -/
def execStoreRegs (x : Reg) (s : State) : Result :=
  if inMemory s.ireg.toNat (x.toNat + 1) then
    .next (s.advance.storeBytes s.ireg.toNat (s.firstVs x))
  else takeFault .memoryOutOfBounds (.storeRegs x) s

/-- Fx65, LD Vx, [I] (R205). -/
def execLoadRegs (x : Reg) (s : State) : Result :=
  if inMemory s.ireg.toNat (x.toNat + 1) then
    .next (s.advance.setVs 0 (s.bytesAt s.ireg.toNat (x.toNat + 1)))
  else takeFault .memoryOutOfBounds (.loadRegs x) s

end Sys2Proof.Machine
end

