-- ==== Sys2Proof/Machine/Display.lean ====
section
/-!
DEFINITION. The display (spec/44_display.md): clear, and the sprite writer in the shape of R231's
own loops, row by row and bit by bit.
-/

namespace Sys2Proof.Machine

/-- 00E0, CLS (R230). -/
def execCls (s : State) : Result := .next { s.advance with fb := FrameBuffer.clear }

/-- The body of R231's inner loop: bit `b` of a sprite row drawn from column `x0` at row `py`. Bit 7
is the leftmost pixel (log 7); outside the grid nothing is drawn and nothing collides. The pair is
the framebuffer and the collision so far. -/
def plotBit (x0 py : Nat) (row : Byte) (acc : FrameBuffer × Bool) (b : Nat) : FrameBuffer × Bool :=
  if row.getLsbD (7 - b) && decide (x0 + b < 64) && decide (py < 32) then
    (FrameBuffer.toggle acc.1 (x0 + b) py, acc.2 || FrameBuffer.cell acc.1 (x0 + b) py)
  else acc

/-- One sprite row: b = 0 to 7. -/
def plotRow (x0 py : Nat) (row : Byte) (acc : FrameBuffer × Bool) : FrameBuffer × Bool :=
  (List.range 8).foldl (plotBit x0 py row) acc

/-- The sprite's rows, the first at row `y0`. -/
def plotRows (x0 y0 : Nat) : List Byte → FrameBuffer × Bool → FrameBuffer × Bool
  | [], acc => acc
  | row :: rows, acc => plotRows x0 (y0 + 1) rows (plotRow x0 y0 row acc)

/-- The framebuffer after drawing a sprite, and whether an on cell was erased. -/
def drawSprite (fb : FrameBuffer) (x0 y0 : Nat) (rows : List Byte) : FrameBuffer × Bool :=
  plotRows x0 y0 rows (fb, false)

/-- The start column: Vx mod 64. -/
def startColumn (b : Byte) : Nat := b.toNat % 64

/-- The start row: Vy mod 32. -/
def startRow (b : Byte) : Nat := b.toNat % 32

/-- The sprite that Dxyn draws in this state. -/
def drawn (x y : Reg) (n : Nibble) (s : State) : FrameBuffer × Bool :=
  drawSprite s.fb (startColumn (s.getV x)) (startRow (s.getV y))
    (s.bytesAt s.ireg.toNat n.toNat)

/-- Dxyn, DRW Vx, Vy, n (R231): every row's byte is checked, clipped or not; VF is written last. -/
def execDrw (x y : Reg) (n : Nibble) (s : State) : Result :=
  if inMemory s.ireg.toNat n.toNat then
    .next ({ s.advance with fb := (drawn x y n s).1 }.setV vF (flagByte (drawn x y n s).2))
  else takeFault .memoryOutOfBounds (.drw x y n) s

end Sys2Proof.Machine
end

