-- ==== Sys2Proof/Machine/KeysTimers.lean ====
section
/-!
DEFINITION. Keypad and timer instructions (spec/45_keys_timers.md).
-/

namespace Sys2Proof.Machine

/-- Ex9E, SKP Vx (R250): the flag is read and not cleared. -/
def execSkp (x : Reg) (s : State) : Result :=
  match keyIndex (s.getV x) with
  | some k => skipIf (s.getKey k) s
  | none => takeFault .invalidKeyIndex (.skp x) s

/-- ExA1, SKNP Vx (R251). -/
def execSknp (x : Reg) (s : State) : Result :=
  match keyIndex (s.getV x) with
  | some k => skipIf (!s.getKey k) s
  | none => takeFault .invalidKeyIndex (.sknp x) s

/-- Fx07, LD Vx, DT (R252; log 8). -/
def execLdVxDt (x : Reg) (s : State) : Result := .next (s.advance.setV x s.dt)

/-- Fx0A, LD Vx, K (R253): the lowest pressed key is taken and its flag cleared; with none pressed PC
goes back to a, so that the next step runs the instruction again. -/
def execLdVxK (x : Reg) (s : State) : Result :=
  match firstPressed s with
  | some k => .next ((s.advance.setV x (BitVec.ofNat 8 k.val)).setKey k false)
  | none => .next s.advance.rewind

/-- Fx15, LD DT, Vx (R254; log 8). -/
def execLdDtVx (x : Reg) (s : State) : Result := .next { s.advance with dt := s.getV x }

/-- Fx18, LD ST, Vx (R255; log 8). -/
def execLdStVx (x : Reg) (s : State) : Result := .next { s.advance with st := s.getV x }

end Sys2Proof.Machine
end

