-- ==== Sys2Proof/Machine/Step.lean ====
section
/-!
DEFINITION. The Step transaction (spec/40_step.md R122), and the placing of an instruction where it
fetches.
-/

namespace Sys2Proof.Machine

/-- `Step()`: nothing on a halted core; else fetch, decode, and run the one instruction or no-op word
at PC. -/
def step (s : State) : Host.Outcome State Fault Refusal :=
  match s.fault with
  | some _ => halted s
  | none =>
    match fetch s with
    | none => takeFetchFault s
    | some w =>
      match decode w with
      | none => noMatch s
      | some i => exec i s

/-- `s` with the two bytes of the word `w` at PC and PC + 1, where the next step fetches, and FAULT
none, since a halted core fetches nothing (log 15). -/
def State.withFetchWord (s : State) (nbits w : Nat) : State :=
  { s.storeBytes s.pc.toNat (bytesOfWord (BitVec.ofNat 16 (w % 2 ^ nbits))) with fault := none }

end Sys2Proof.Machine
end

