-- ==== Sys2Proof/Machine/Transactions.lean ====
section
/-!
DEFINITION. Every transaction of spec/40_step.md R121 other than Step, as an operation on the state.
-/

namespace Sys2Proof.Machine

/-- One 8-bit counter's decrement, saturating at 0 (spec/10_state.md R31). -/
def countDown (b : Byte) : Byte := if b = 0#8 then 0#8 else b - 1#8

/-- Tick (spec/60_exceptions.md R291); nothing on a halted core (R286). -/
def tick (s : State) : State :=
  match s.fault with
  | some _ => s
  | none => { s with dt := countDown s.dt, st := countDown s.st }

/-- `k` Ticks in a row (R293). -/
def ticks : Nat → State → State
  | 0, s => s
  | k + 1, s => ticks k (tick s)

/-- KeyDown(k) (spec/60_exceptions.md R296); on a halted core too (R286). -/
def keyDown (k : Fin 16) (s : State) : State := s.setKey k true

/-- KeyUp(k) (spec/60_exceptions.md R296). -/
def keyUp (k : Fin 16) (s : State) : State := s.setKey k false

/-- What Load answers (spec/70_reset_and_hazards.md R322). -/
inductive LoadAnswer where
  | ok
  | romTooLarge
deriving DecidableEq, Repr

/-- Load(rom) (spec/70_reset_and_hazards.md R322): the ROM's bytes at 0x200 upward, or RomTooLarge
and nothing changed. -/
def loadRom (rom : List Byte) (s : State) : LoadAnswer × State :=
  if rom.length ≤ 3584 then (.ok, s.storeBytes 0x200 rom) else (.romTooLarge, s)

/-- ReadFB: the 2048 cells, FB[0] first (spec/60_exceptions.md R297). -/
def readFB (s : State) : List Bool := (List.range 2048).map (FrameBuffer.flat s.fb)

/-- ReadSound: SOUND = (ST is not 0) (spec/60_exceptions.md R294). -/
def readSound (s : State) : Bool := s.st != 0#8

/-- ReadFault (spec/60_exceptions.md R281). -/
def readFault (s : State) : Option FaultRecord := s.fault

/-- Reset (spec/70_reset_and_hazards.md R320). The count of random draws is no state of the core and
goes on, so that a later run draws its own bytes (log 11). -/
def resetCore (s : State) : State := { State.reset with draws := s.draws }

/-- The numeric codes of the fault kinds (spec/60_exceptions.md R280). -/
def StepFault.code : StepFault → Nat
  | .stackOverflow => 2
  | .stackUnderflow => 3
  | .invalidKeyIndex => 4
  | .memoryOutOfBounds => 5

/-- RomTooLarge's code (spec/60_exceptions.md R280). -/
def romTooLargeCode : Nat := 1

end Sys2Proof.Machine
end

