-- ==== Sys2Proof/Machine/Arbiter.lean ====
section
/-!
DEFINITION. The arbiter of spec/20_memory.md R71: whole transactions, one at a time, in one total
order, over the whole state. The order is an argument, a list of transactions (R72).
-/

namespace Sys2Proof.Machine

/-- The transactions of spec/40_step.md R121. The host cannot name a key above 15 (R296). -/
inductive Transaction where
  | reset
  | load (rom : List Byte)
  | step
  | tick
  | keyDown (k : Fin 16)
  | keyUp (k : Fin 16)
  | readFB
  | readSound
  | readFault
deriving DecidableEq, Repr

/-- What a transaction gives back (spec/40_step.md R121). -/
inductive Response where
  | done
  | screen (cells : List Bool)
  | sound (on : Bool)
  | latch (f : Option FaultRecord)
deriving DecidableEq, Repr

/-- How far a run has come: Load is made once, after Reset and before the first Step
(spec/70_reset_and_hazards.md R323). -/
inductive Stage where
  | fresh
  | started
deriving DecidableEq, Repr

/-- The core and its run. -/
structure Session where
  stage : Stage
  core : State
deriving DecidableEq, Repr

/-- A run just after Reset. -/
def Session.start : Session := ⟨.fresh, State.reset⟩

/-- Load in a run (spec/70_reset_and_hazards.md R322, R323): RomTooLarge ends the run (log 13). -/
def Session.load (rom : List Byte) (z : Session) :
    Host.Outcome (Response × Session) Fault Refusal :=
  match z.stage with
  | .started => .refused .loadAfterStart
  | .fresh =>
    match loadRom rom z.core with
    | (.ok, t) => .next (.done, ⟨.started, t⟩)
    | (.romTooLarge, _) => .fault .romTooLarge

/-- Step in a run. -/
def Session.step (z : Session) : Host.Outcome (Response × Session) Fault Refusal :=
  match Sys2Proof.Machine.step z.core with
  | .next t => .next (.done, ⟨.started, t⟩)
  | .fault r => .fault r
  | .refused r => .refused r

/-- One transaction, atomic over the whole state (spec/20_memory.md R71). -/
def Session.apply (z : Session) (tr : Transaction) :
    Host.Outcome (Response × Session) Fault Refusal :=
  match tr with
  | .reset => .next (.done, ⟨.fresh, resetCore z.core⟩)
  | .load rom => z.load rom
  | .step => z.step
  | .tick => .next (.done, ⟨z.stage, Sys2Proof.Machine.tick z.core⟩)
  | .keyDown k => .next (.done, ⟨z.stage, Sys2Proof.Machine.keyDown k z.core⟩)
  | .keyUp k => .next (.done, ⟨z.stage, Sys2Proof.Machine.keyUp k z.core⟩)
  | .readFB => .next (.screen (Sys2Proof.Machine.readFB z.core), z)
  | .readSound => .next (.sound (Sys2Proof.Machine.readSound z.core), z)
  | .readFault => .next (.latch (Sys2Proof.Machine.readFault z.core), z)

/-- A schedule: the transactions in the arbiter's order, and the session they lead to, if none stops. -/
def Session.run (z : Session) : List Transaction → Option Session
  | [] => some z
  | tr :: trs =>
    match z.apply tr with
    | .next (_, z') => z'.run trs
    | .fault _ => none
    | .refused _ => none

end Sys2Proof.Machine
end

