-- ==== Sys2Proof/Safety.lean ====
section
/-!
DEFINITION. The terms claims are made in: the stopping conditions of spec/40_step.md R129, the
invariant of reachable states, what an instruction may change, and fairness
(spec/70_reset_and_hazards.md R333).
-/

namespace Sys2Proof.Machine

/-! ### Stopping conditions (spec/40_step.md R129) -/

/-- Faulted(s). -/
abbrev Faulted (s : State) : Prop := s.fault ≠ none

/-- Idle(s): the word at PC is a jump to itself. -/
abbrev Idle (s : State) : Prop :=
  s.fault = none ∧ s.pc.toNat ≤ 0xFFE ∧ fetch s = some (0x1000#16 ||| s.pc)

/-- KeyWait(s): the word at PC is Fx0A for some x, and no key is pressed. -/
abbrev KeyWait (s : State) : Prop :=
  s.fault = none ∧ s.pc.toNat ≤ 0xFFE ∧ (∃ x : Reg, fetch s = some (0xF#4 ++ x ++ 0x0A#8)) ∧
    ∀ k : Fin 16, s.getKey k = false

/-! ### The invariant -/

/-- What FAULT may hold: the address it records is PC and its opcode the word there, since a faulting
step changes nothing else and the core is halted after it (spec/60_exceptions.md R282, R286); a record
with no opcode is a fetch's (R281). -/
abbrev LatchOk (s : State) : Prop :=
  match s.fault with
  | none => True
  | some r => r.addr = s.pc ∧ r.opcode = fetch s ∧ (r.opcode = none → r.kind = .memoryOutOfBounds)

/-- The invariant of every reachable state: memory in canonical form, SP at most 16
(spec/10_state.md R29), PC at most 0x10FE (R28), every stack entry at most 0x1000 (R38), and the latch
as `LatchOk` says. -/
abbrev Inv (s : State) : Prop :=
  s.mem.wf ∧ s.sp.toNat ≤ 16 ∧ s.pc.toNat ≤ 0x10FE ∧ (∀ k : Fin 16, s.stack[k].toNat ≤ 0x1000) ∧
    LatchOk s

/-- The invariant of a run: a core that has made no Step has no fault. -/
abbrev Session.Inv (z : Session) : Prop :=
  Sys2Proof.Machine.Inv z.core ∧ (z.stage = .fresh → z.core.fault = none)

/-! ### Faults of an instruction (spec/60_exceptions.md R280) -/

/-- The fault condition of an instruction in the state before its step: at most one (R285). -/
def faultCondition (i : Instr) (s : State) : Option StepFault :=
  match i with
  | .call _ => if s.sp = 16#8 then some .stackOverflow else none
  | .ret _ => if s.sp = 0#8 then some .stackUnderflow else none
  | .skp x => if s.getV x > 15#8 then some .invalidKeyIndex else none
  | .sknp x => if s.getV x > 15#8 then some .invalidKeyIndex else none
  | .drw _ _ n =>
    if n ≠ 0#4 ∧ s.ireg.toNat + n.toNat - 1 ≥ 4096 then some .memoryOutOfBounds else none
  | .ldB _ => if s.ireg.toNat + 2 ≥ 4096 then some .memoryOutOfBounds else none
  | .storeRegs x => if s.ireg.toNat + x.toNat ≥ 4096 then some .memoryOutOfBounds else none
  | .loadRegs x => if s.ireg.toNat + x.toNat ≥ 4096 then some .memoryOutOfBounds else none
  | _ => none

/-! ### What changed -/

/-- The parts of the state other than PC. -/
inductive Part where
  | mem | v | ireg | stack | dt | st | fb | key | fault | draws
deriving DecidableEq, Repr

/-- `t` differs from `s` at most in PC and in the parts named: every byte, register, cell and flag of
every other part is as it was (the frame rule, spec/00_scope.md R14). `stack` stands for SP and STACK. -/
def Keeps (may : List Part) (s t : State) : Prop :=
  (.mem ∉ may → ∀ a, t.byteAt a = s.byteAt a) ∧
  (.v ∉ may → ∀ r, t.getV r = s.getV r) ∧
  (.ireg ∉ may → t.ireg = s.ireg) ∧
  (.stack ∉ may → t.sp = s.sp ∧ t.stack = s.stack) ∧
  (.dt ∉ may → t.dt = s.dt) ∧
  (.st ∉ may → t.st = s.st) ∧
  (.fb ∉ may → t.fb = s.fb) ∧
  (.key ∉ may → t.key = s.key) ∧
  (.fault ∉ may → t.fault = s.fault) ∧
  (.draws ∉ may → t.draws = s.draws)

/-! ### Fairness (spec/70_reset_and_hazards.md R333) -/

/-- An endless schedule in which Steps and Ticks both occur again and again; the host owes nothing. -/
def FairSchedule (sched : Nat → Transaction) : Prop :=
  ∀ n, (∃ m, n ≤ m ∧ sched m = .step) ∧ (∃ m, n ≤ m ∧ sched m = .tick)

end Sys2Proof.Machine
end

