-- ==== Sys2Proof/Certificates/Slice0/Obligations.lean ====
section
/-!
DEFINITION. The statements for the provers. Each docstring names the rule it formalises. Every `Keeps`
clause rests on the frame rule, spec/00_scope.md R14, which the spec marks as its own decision D10
(log 6), so a statement with one has basis derived, except where the rule itself says that nothing
else changes; every clause about a latched fault rests on the spec's own decisions D3, D5 and D6
(log 9).
-/

open Sys2Proof Sys2Proof.Machine

/-! ### Terms of the statements -/

/-- The word `w` is the instruction `i`, under either value of P_DECODE. -/
def Sys2Proof.Certificates.Reads (w : Word) (i : Instr) : Prop := ∀ m, decodeWith m w = some i

/-- The parts an instruction's rule lets change, other than PC; FAULT for those that can fault. -/
def Sys2Proof.Certificates.mayChange : Instr → List Part
  | .cls _ => [.fb]
  | .ret _ | .call _ => [.stack, .fault]
  | .jp _ | .jpV0 _ | .seImm _ _ | .sneImm _ _ | .seReg _ _ _ | .sneReg _ _ _ => []
  | .ldImm _ _ | .addImm _ _ | .ldReg _ _ | .orReg _ _ | .andReg _ _ | .xorReg _ _ | .addReg _ _
  | .sub _ _ | .shr _ _ | .subn _ _ | .shl _ _ | .ldVxDt _ => [.v]
  | .rnd _ _ => [.v, .draws]
  | .ldI _ | .addI _ | .ldF _ => [.ireg]
  | .drw _ _ _ => [.v, .fb, .fault]
  | .skp _ | .sknp _ => [.fault]
  | .ldVxK _ => [.v, .key]
  | .ldDtVx _ => [.dt]
  | .ldStVx _ => [.st]
  | .ldB _ | .storeRegs _ => [.mem, .fault]
  | .loadRegs _ => [.v, .fault]

/-- Whether an instruction's rule writes register `r` (spec/10_state.md R23). -/
def Sys2Proof.Certificates.writesReg (i : Instr) (r : Reg) : Prop :=
  match i with
  | .ldImm x _ | .addImm x _ | .ldReg x _ | .orReg x _ | .andReg x _ | .xorReg x _ | .rnd x _
  | .ldVxDt x | .ldVxK x => r = x
  | .addReg x _ | .sub x _ | .shr x _ | .subn x _ | .shl x _ => r = x ∨ r = vF
  | .drw _ _ _ => r = vF
  | .loadRegs x => r.toNat ≤ x.toNat
  | _ => False

/-- How many bytes an instruction stores from the address in I (spec/20_memory.md R70). -/
def Sys2Proof.Certificates.storedCount : Instr → Nat
  | .ldB _ => 3
  | .storeRegs x => x.toNat + 1
  | _ => 0

/-- A 1-bit of the sprite that Dxyn draws in `s` lies over column `px` and row `py`, before clipping:
row `r`, bit `b` of R231's loops. -/
def Sys2Proof.Certificates.spriteOver (x y : Reg) (n : Nibble) (s : State) (px py : Nat) : Prop :=
  ∃ r b, r < n.toNat ∧ b < 8 ∧ px = (s.getV x).toNat % 64 + b ∧ py = (s.getV y).toNat % 32 + r ∧
    (s.byteAt (s.ireg.toNat + r)).getLsbD (7 - b) = true

/-- A sprite row as a mask of a display row, the bits past the right edge shifted out. -/
def Sys2Proof.Certificates.rowMask (x0 : Nat) (row : Byte) : BitVec 64 := (row.setWidth 64 <<< 56) >>> x0

/-- Drawing by whole rows: XOR of the mask, collision where the mask meets an on cell. -/
def Sys2Proof.Certificates.maskDraw (x0 : Nat) : Nat → List Byte → FrameBuffer × Bool → FrameBuffer × Bool
  | _, [], acc => acc
  | y, row :: rows, acc =>
    maskDraw x0 (y + 1) rows
      (if h : y < 32 then
        (acc.1.set y (acc.1[y] ^^^ Sys2Proof.Certificates.rowMask x0 row),
         acc.2 || acc.1[y] &&& Sys2Proof.Certificates.rowMask x0 row != 0#64)
      else acc)

open Sys2Proof.Certificates

/-! ### Encoding (spec/30_encoding.md) -/

/-- R90, R91, R95, R98: the decoder reads back every well-formed instruction from its word, under
either value of P_DECODE. -/
def Obligations.DecodeOfEncode : Prop :=
  ∀ (m : DecodeMode) (i : Instr), i.wellFormed m = true → decodeWith m (encode i) = some i

/-- R90, R91, R95, R98: a word that decodes is the word of the instruction it decodes to, and that
instruction is well formed. -/
def Obligations.EncodeOfDecode : Prop :=
  ∀ (m : DecodeMode) (w : Word) (i : Instr), decodeWith m w = some i →
    encode i = w ∧ i.wellFormed m = true

/-- R95: under STRICT a word that matches a row's mask is that row's instruction, a word that matches
none decodes to none, and no two rows overlap. -/
def Obligations.DecodeFollowsOpcodeMap : Prop :=
  (∀ (w : Word) (r : OpcodeRow), r ∈ opcodeMap → r.covers w = true →
    ∃ i, decodeWith .strict w = some i ∧ i.row = r) ∧
  (∀ w : Word, (∀ r ∈ opcodeMap, r.covers w = false) → decodeWith .strict w = none) ∧
  (∀ (w : Word) (r r' : OpcodeRow), r ∈ opcodeMap → r' ∈ opcodeMap →
    r.covers w = true → r'.covers w = true → r = r')

/-- R98: what LOOSE adds to STRICT, and that it changes nothing else. -/
def Obligations.LooseOpcodeMap : Prop :=
  ∀ w : Word, decodeWith .loose w =
    if w &&& 0xF0FF#16 = 0x00E0#16 then some (.cls (fieldX w))
    else if w &&& 0xF0FF#16 = 0x00EE#16 then some (.ret (fieldX w))
    else if w &&& 0xF000#16 = 0x5000#16 then some (.seReg (fieldX w) (fieldY w) (fieldN w))
    else if w &&& 0xF000#16 = 0x9000#16 then some (.sneReg (fieldX w) (fieldY w) (fieldN w))
    else decodeWith .strict w

/-- R95: one word of each family, written out digit by digit. A sanity statement. -/
def Obligations.SampleWordsDecode : Prop :=
  Reads 0x00EE#16 (.ret 0) ∧ Reads 0x2300#16 (.call 0x300) ∧ Reads 0x6A05#16 (.ldImm 0xA 0x05) ∧
  Reads 0x8127#16 (.subn 1 2) ∧ Reads 0xF265#16 (.loadRegs 2) ∧ Reads 0xD121#16 (.drw 1 2 1) ∧
  Reads 0xE5A1#16 (.sknp 5) ∧ Reads 0xF40A#16 (.ldVxK 4)

/-! ### The step (spec/40_step.md) -/

/-- R122, R65: the fetch is the big-endian word at PC, and the step of a core with no fault is the
meaning of the instruction that word decodes to, nothing around it. -/
def Obligations.StepRunsDecodedInstruction : Prop :=
  ∀ (s : State) (i : Instr), s.fault = none → s.pc.toNat ≤ 0xFFE →
    decode (s.byteAt s.pc.toNat ++ s.byteAt (s.pc.toNat + 1)) = some i → step s = exec i s

/-- R122, R76: an instruction's word placed at PC is what the next step runs, from any state whose
fetch can succeed. -/
def Obligations.PlacedWordRuns : Prop :=
  ∀ (s : State) (i : Instr), s.pc.toNat ≤ 0xFFE → i.wellFormed decodeMode = true →
    decodeTableWord 16 (encode i).toNat = some i ∧
    step (s.withFetchWord 16 (encode i).toNat) = exec i (s.withFetchWord 16 (encode i).toNat)

/-- R96: a word that matches no row is a no-op. -/
def Obligations.UnmatchedWordAdvances : Prop :=
  ∀ s : State, s.fault = none → s.pc.toNat ≤ 0xFFE →
    decode (s.byteAt s.pc.toNat ++ s.byteAt (s.pc.toNat + 1)) = none →
    step s = .next { s with pc := s.pc + 2#16 }

/-- R63, R122: a fetch that would read past 0xFFF latches MemoryOutOfBounds with no opcode, and
nothing else changes. -/
def Obligations.FetchPastTopFaults : Prop :=
  ∀ s : State, s.fault = none → 0xFFE < s.pc.toNat →
    step s = .next { s with fault := some ⟨.memoryOutOfBounds, none, s.pc⟩ }

/-- R282: a step that latches a fault changes nothing but FAULT, which records the address PC and the
word there. -/
def Obligations.FaultsArePrecise : Prop :=
  ∀ s t : State, s.fault = none → step s = .next t → t.fault ≠ none →
    ∃ kind, t = { s with fault := some ⟨kind, fetch s, s.pc⟩ }

/-- R280, R285: an instruction latches exactly the fault whose condition holds, with its own word and
address, and latches none where no condition holds; the codes of the kinds. -/
def Obligations.FaultConditionsExact : Prop :=
  (∀ (i : Instr) (s t : State), s.fault = none → exec i s = .next t →
    t.fault = (faultCondition i s).map fun k => ⟨k, some (encode i), s.pc⟩) ∧
  romTooLargeCode = 1 ∧ StepFault.code .stackOverflow = 2 ∧ StepFault.code .stackUnderflow = 3 ∧
  StepFault.code .invalidKeyIndex = 4 ∧ StepFault.code .memoryOutOfBounds = 5

/-- R286, R122: a step of a halted core changes nothing; so does every transaction but Reset and the
key events, and these two leave all but KEY as it is; a refused Load changes nothing either. -/
def Obligations.HaltedCoreIsStill : Prop :=
  (∀ s : State, s.fault ≠ none → step s = .next s) ∧
  ∀ (z z' : Session) (tr : Transaction) (resp : Response), z.Inv → z.core.fault ≠ none →
    tr ≠ .reset → z.apply tr = .next (resp, z') →
    z'.core = { z.core with key := z'.core.key } ∧
    ((∀ k, tr ≠ .keyDown k ∧ tr ≠ .keyUp k) → z'.core = z.core)

/-! ### Invariants -/

/-- R28, R29, R40: the invariant holds after Reset. -/
def Obligations.InvAtReset : Prop := Inv State.reset ∧ Session.start.Inv

/-- R28, R29, R35, R38: every step keeps the invariant. -/
def Obligations.StepKeepsInv : Prop := ∀ s t : State, Inv s → step s = .next t → Inv t

/-- R28, R29, R71: every transaction, in any order, keeps the invariant. -/
def Obligations.TransactionsKeepInv : Prop :=
  ∀ (z z' : Session) (tr : Transaction) (resp : Response), z.Inv → z.apply tr = .next (resp, z') →
    z'.Inv

/-- R124, R126: from a state that meets the invariant a step always answers a next state: the model's
own stop, SP above 16 (log 10), is never reached. -/
def Obligations.StepNeverStops : Prop := ∀ s : State, Inv s → ∃ t, step s = .next t

/-- R40: the reset table. P_FONT is free (log 3). -/
def Obligations.ResetValues : Prop :=
  (∀ a, State.reset.byteAt a = if a ≤ 0x4F then fontByte a else 0x00#8) ∧
  (∀ r : Reg, State.reset.getV r = 0x00#8) ∧ State.reset.ireg = 0x0000#16 ∧
  State.reset.pc = 0x0200#16 ∧ State.reset.sp = 0#8 ∧
  (∀ k : Fin 16, State.reset.stack[k] = 0x0000#16) ∧ State.reset.dt = 0#8 ∧ State.reset.st = 0#8 ∧
  (∀ i, FrameBuffer.flat State.reset.fb i = false) ∧ (∀ k, State.reset.getKey k = false) ∧
  State.reset.fault = none

/-! ### Frames (spec/00_scope.md R14) -/

/-- Every instruction, completed or faulting, changes only the parts its rule names, only the
registers its rule writes, and only the bytes it stores from the address in I. -/
def Obligations.InstructionFrames : Prop :=
  ∀ (i : Instr) (s t : State), exec i s = .next t →
    Keeps (mayChange i) s t ∧
    (∀ r, ¬ writesReg i r → t.getV r = s.getV r) ∧
    (∀ a, a < s.ireg.toNat ∨ s.ireg.toNat + storedCount i ≤ a → t.byteAt a = s.byteAt a)

/-- R24: VF changes only in the six instructions that write it as a flag and where it is the
destination. -/
def Obligations.VfWrittenOnlyByItsWriters : Prop :=
  ∀ (i : Instr) (s t : State), exec i s = .next t → t.getV vF ≠ s.getV vF →
    (∃ x y, i = .addReg x y) ∨ (∃ x y, i = .sub x y) ∨ (∃ x y, i = .shr x y) ∨
    (∃ x y, i = .subn x y) ∨ (∃ x y, i = .shl x y) ∨ (∃ x y n, i = .drw x y n) ∨
    (∃ nn, i = .ldImm vF nn) ∨ (∃ nn, i = .addImm vF nn) ∨ (∃ y, i = .ldReg vF y) ∨
    (∃ y, i = .orReg vF y) ∨ (∃ y, i = .andReg vF y) ∨ (∃ y, i = .xorReg vF y) ∨
    (∃ nn, i = .rnd vF nn) ∨ i = .ldVxDt vF ∨ i = .ldVxK vF ∨ i = .loadRegs vF

/-- R31, R255: no instruction reads ST: two states that differ only there step to states that differ
only there. -/
def Obligations.NoInstructionReadsSoundTimer : Prop :=
  ∀ (s t : State) (b : Byte), step s = .next t →
    ∃ b', step { s with st := b } = .next { t with st := b' }

/-- R30: no instruction can read a STACK entry at index SP or above. -/
def Obligations.DeadStackEntriesUnread : Prop :=
  ∀ (s t : State) (k : Fin 16) (e : Word), s.sp.toNat ≤ k.val → step s = .next t →
    ∃ e', step { s with stack := s.stack.set k e } = .next { t with stack := t.stack.set k e' }

/-! ### Control transfer and skips (spec/41_flow.md) -/

/-- R140: RET with 1 to 16 entries in use pops one; with none it latches StackUnderflow. -/
def Obligations.RetPops : Prop :=
  ∀ (d : Nibble) (s : State),
    (d = 0#4 → Reads (0x0#4 ++ d ++ 0xEE#8) (.ret d)) ∧
    decodeWith .loose (0x0#4 ++ d ++ 0xEE#8) = some (.ret d) ∧
    (∀ k : Fin 16, s.sp.toNat = k.val + 1 →
      ∃ t, exec (.ret d) s = .next t ∧ t.sp.toNat = k.val ∧ t.pc = s.stack[k] ∧
        t.stack = s.stack) ∧
    (s.sp = 0#8 → exec (.ret d) s =
      .next { s with fault := some ⟨.stackUnderflow, some (0x0#4 ++ d ++ 0xEE#8), s.pc⟩ })

/-- R142: CALL with fewer than 16 entries in use pushes a + 2; with 16 it latches StackOverflow. -/
def Obligations.CallPushes : Prop :=
  ∀ (nnn : Addr12) (s : State),
    Reads (0x2#4 ++ nnn) (.call nnn) ∧
    (∀ k : Fin 16, s.sp.toNat = k.val →
      ∃ t, exec (.call nnn) s = .next t ∧ t.sp.toNat = k.val + 1 ∧ t.pc = nnn.setWidth 16 ∧
        ∀ j : Fin 16, t.stack[j] = if j = k then s.pc + 2#16 else s.stack[j]) ∧
    (s.sp = 16#8 → exec (.call nnn) s =
      .next { s with fault := some ⟨.stackOverflow, some (0x2#4 ++ nnn), s.pc⟩ })

/-- R142: "2nnn followed eventually by 00EE restores PC to the instruction address immediately after
the original 2nnn", and SP to its value before the call, whatever ran in between, as long as SP and
the pushed entry are as the call left them. -/
def Obligations.CallThenRetReturns : Prop :=
  ∀ (nnn : Addr12) (d : Nibble) (s : State), s.sp.toNat < 16 →
    ∃ t, exec (.call nnn) s = .next t ∧
      ∀ u : State, u.sp = t.sp → u.stack = t.stack →
        ∃ v, exec (.ret d) u = .next v ∧ v.pc = s.pc + 2#16 ∧ v.sp = s.sp

/-- R141, R147: JP and JP V0: PC, and no flag. -/
def Obligations.JumpsSetPc : Prop :=
  ∀ (nnn : Addr12) (s : State),
    Reads (0x1#4 ++ nnn) (.jp nnn) ∧ Reads (0xB#4 ++ nnn) (.jpV0 nnn) ∧
    (∃ t, exec (.jp nnn) s = .next t ∧ t.pc = nnn.setWidth 16 ∧ t.getV vF = s.getV vF) ∧
    (∃ t, exec (.jpV0 nnn) s = .next t ∧ t.pc.toNat = nnn.toNat + (s.getV 0).toNat ∧
      t.getV vF = s.getV vF)

/-- R143, R144: SE and SNE with a byte: PC, and no flag. -/
def Obligations.ByteSkips : Prop :=
  ∀ (x : Reg) (nn : Byte) (s : State),
    Reads (0x3#4 ++ x ++ nn) (.seImm x nn) ∧ Reads (0x4#4 ++ x ++ nn) (.sneImm x nn) ∧
    (∃ t, exec (.seImm x nn) s = .next t ∧ t.getV vF = s.getV vF ∧
      t.pc = if s.getV x = nn then s.pc + 4#16 else s.pc + 2#16) ∧
    (∃ t, exec (.sneImm x nn) s = .next t ∧ t.getV vF = s.getV vF ∧
      t.pc = if s.getV x = nn then s.pc + 2#16 else s.pc + 4#16)

/-- R145, R146: SE and SNE with a register: PC, and no flag; the fixed digit as P_DECODE says (R98). -/
def Obligations.RegisterSkips : Prop :=
  ∀ (x y : Reg) (n : Nibble) (s : State),
    Reads (0x5#4 ++ x ++ (y ++ 0x0#4)) (.seReg x y 0) ∧
    Reads (0x9#4 ++ x ++ (y ++ 0x0#4)) (.sneReg x y 0) ∧
    decodeWith .loose (0x5#4 ++ x ++ (y ++ n)) = some (.seReg x y n) ∧
    decodeWith .loose (0x9#4 ++ x ++ (y ++ n)) = some (.sneReg x y n) ∧
    (n ≠ 0#4 → decodeWith .strict (0x5#4 ++ x ++ (y ++ n)) = none ∧
      decodeWith .strict (0x9#4 ++ x ++ (y ++ n)) = none) ∧
    (∃ t, exec (.seReg x y n) s = .next t ∧ t.getV vF = s.getV vF ∧
      t.pc = if s.getV x = s.getV y then s.pc + 4#16 else s.pc + 2#16) ∧
    (∃ t, exec (.sneReg x y n) s = .next t ∧ t.getV vF = s.getV vF ∧
      t.pc = if s.getV x = s.getV y then s.pc + 2#16 else s.pc + 4#16)

/-! ### Loads, arithmetic, logic, shifts, random (spec/42_alu.md) -/

/-- R171, R172, R173: LD and ADD of a byte, LD of a register: V[x] is written, and no flag. -/
def Obligations.PlainRegisterWrites : Prop :=
  ∀ (x y : Reg) (nn : Byte) (s : State),
    Reads (0x6#4 ++ x ++ nn) (.ldImm x nn) ∧ Reads (0x7#4 ++ x ++ nn) (.addImm x nn) ∧
    Reads (0x8#4 ++ x ++ (y ++ 0x0#4)) (.ldReg x y) ∧
    (∃ t, exec (.ldImm x nn) s = .next t ∧ t.pc = s.pc + 2#16 ∧ t.getV x = nn ∧
      (x ≠ vF → t.getV vF = s.getV vF)) ∧
    (∃ t, exec (.addImm x nn) s = .next t ∧ t.pc = s.pc + 2#16 ∧
      (t.getV x).toNat = ((s.getV x).toNat + nn.toNat) % 256 ∧
      (x ≠ vF → t.getV vF = s.getV vF)) ∧
    (∃ t, exec (.ldReg x y) s = .next t ∧ t.pc = s.pc + 2#16 ∧ t.getV x = s.getV y ∧
      (x ≠ vF → t.getV vF = s.getV vF))

/-- R174, R175, R176: OR, AND, XOR: bit by bit, and VF not written unless it is the destination. -/
def Obligations.BitwiseLogic : Prop :=
  ∀ (x y : Reg) (s : State),
    Reads (0x8#4 ++ x ++ (y ++ 0x1#4)) (.orReg x y) ∧
    Reads (0x8#4 ++ x ++ (y ++ 0x2#4)) (.andReg x y) ∧
    Reads (0x8#4 ++ x ++ (y ++ 0x3#4)) (.xorReg x y) ∧
    (∃ t, exec (.orReg x y) s = .next t ∧ t.pc = s.pc + 2#16 ∧
      (∀ k, (t.getV x).getLsbD k = ((s.getV x).getLsbD k || (s.getV y).getLsbD k)) ∧
      (x ≠ vF → t.getV vF = s.getV vF)) ∧
    (∃ t, exec (.andReg x y) s = .next t ∧ t.pc = s.pc + 2#16 ∧
      (∀ k, (t.getV x).getLsbD k = ((s.getV x).getLsbD k && (s.getV y).getLsbD k)) ∧
      (x ≠ vF → t.getV vF = s.getV vF)) ∧
    (∃ t, exec (.xorReg x y) s = .next t ∧ t.pc = s.pc + 2#16 ∧
      (∀ k, (t.getV x).getLsbD k = ((s.getV x).getLsbD k ^^ (s.getV y).getLsbD k)) ∧
      (x ≠ vF → t.getV vF = s.getV vF))

/-- R177: ADD Vx, Vy: the sum modulo 256, and the carry of the values before the instruction, written
last, so that it is what VF holds where x is VF. -/
def Obligations.AddWritesSumThenCarry : Prop :=
  ∀ (x y : Reg) (s : State),
    Reads (0x8#4 ++ x ++ (y ++ 0x4#4)) (.addReg x y) ∧
    ∃ t, exec (.addReg x y) s = .next t ∧ t.pc = s.pc + 2#16 ∧
      t.getV vF = (if (s.getV x).toNat + (s.getV y).toNat > 255 then 1#8 else 0#8) ∧
      (x ≠ vF → (t.getV x).toNat = ((s.getV x).toNat + (s.getV y).toNat) % 256)

/-- R178, R180: SUB and SUBN where VF is no operand: the difference modulo 256 and VF = no borrow.
Where it is one, `AluReadTable`. -/
def Obligations.SubtractsWithNotBorrow : Prop :=
  ∀ (x y : Reg) (s : State),
    Reads (0x8#4 ++ x ++ (y ++ 0x5#4)) (.sub x y) ∧
    Reads (0x8#4 ++ x ++ (y ++ 0x7#4)) (.subn x y) ∧
    (∃ t, exec (.sub x y) s = .next t ∧ t.pc = s.pc + 2#16 ∧ Keeps [.v] s t ∧
      (x ≠ vF → t.getV vF = if (s.getV y).toNat ≤ (s.getV x).toNat then 1#8 else 0#8) ∧
      (x ≠ vF → y ≠ vF →
        (t.getV x).toNat = ((s.getV x).toNat + 256 - (s.getV y).toNat) % 256) ∧
      ∀ r, r ≠ x → r ≠ vF → t.getV r = s.getV r) ∧
    (∃ t, exec (.subn x y) s = .next t ∧ t.pc = s.pc + 2#16 ∧ Keeps [.v] s t ∧
      (x ≠ vF → t.getV vF = if (s.getV x).toNat ≤ (s.getV y).toNat then 1#8 else 0#8) ∧
      (x ≠ vF → y ≠ vF →
        (t.getV x).toNat = ((s.getV y).toNat + 256 - (s.getV x).toNat) % 256) ∧
      ∀ r, r ≠ x → r ≠ vF → t.getV r = s.getV r)

/-- R179, R181: SHR and SHL where x is not VF: the logical shift by one, VF the bit shifted out, Vy
not read. Where x is VF, `AluReadTable`. -/
def Obligations.ShiftsByOne : Prop :=
  ∀ (x y : Reg) (s : State),
    Reads (0x8#4 ++ x ++ (y ++ 0x6#4)) (.shr x y) ∧
    Reads (0x8#4 ++ x ++ (y ++ 0xE#4)) (.shl x y) ∧
    (∃ t, exec (.shr x y) s = .next t ∧ t.pc = s.pc + 2#16 ∧ Keeps [.v] s t ∧
      (x ≠ vF → (t.getV vF).toNat = (s.getV x).toNat % 2 ∧
        (t.getV x).toNat = (s.getV x).toNat / 2) ∧
      ∀ r, r ≠ x → r ≠ vF → t.getV r = s.getV r) ∧
    (∃ t, exec (.shl x y) s = .next t ∧ t.pc = s.pc + 2#16 ∧ Keeps [.v] s t ∧
      (x ≠ vF → (t.getV vF).toNat = (s.getV x).toNat / 128 ∧
        (t.getV x).toNat = (s.getV x).toNat * 2 % 256) ∧
      ∀ r, r ≠ x → r ≠ vF → t.getV r = s.getV r)

/-- R170: the table of the cases where VF is an operand, both values of P_ALU_READ; away from them
the two values agree; and the machine runs the one that is its parameter. -/
def Obligations.AluReadTable : Prop :=
  (∀ (y : Reg) (s : State), y ≠ vF →
    ∃ t u, execSubWith .latched vF y s = .next t ∧ execSubWith .sequential vF y s = .next u ∧
      t.getV vF = s.getV vF - s.getV y ∧
      u.getV vF = (if (s.getV y).toNat ≤ (s.getV vF).toNat then 1#8 else 0#8) - s.getV y) ∧
  (∀ (x : Reg) (s : State), x ≠ vF →
    ∃ t u, execSubWith .latched x vF s = .next t ∧ execSubWith .sequential x vF s = .next u ∧
      t.getV x = s.getV x - s.getV vF ∧
      u.getV x = s.getV x - (if (s.getV vF).toNat ≤ (s.getV x).toNat then 1#8 else 0#8) ∧
      t.getV vF = (if (s.getV vF).toNat ≤ (s.getV x).toNat then 1#8 else 0#8) ∧
      u.getV vF = t.getV vF) ∧
  (∀ (y : Reg) (s : State), y ≠ vF →
    ∃ t u, execSubnWith .latched vF y s = .next t ∧ execSubnWith .sequential vF y s = .next u ∧
      t.getV vF = s.getV y - s.getV vF ∧
      u.getV vF = s.getV y - (if (s.getV vF).toNat ≤ (s.getV y).toNat then 1#8 else 0#8)) ∧
  (∀ (x : Reg) (s : State), x ≠ vF →
    ∃ t u, execSubnWith .latched x vF s = .next t ∧ execSubnWith .sequential x vF s = .next u ∧
      t.getV x = s.getV vF - s.getV x ∧
      u.getV x = (if (s.getV x).toNat ≤ (s.getV vF).toNat then 1#8 else 0#8) - s.getV x ∧
      t.getV vF = (if (s.getV x).toNat ≤ (s.getV vF).toNat then 1#8 else 0#8) ∧
      u.getV vF = t.getV vF) ∧
  (∀ (m : AluRead) (s : State), ∃ t u, execSubWith m vF vF s = .next t ∧
    execSubnWith m vF vF s = .next u ∧ t.getV vF = 0#8 ∧ u.getV vF = 0#8) ∧
  (∀ s : State, ∃ t u, execShrWith .latched vF s = .next t ∧ execShrWith .sequential vF s = .next u ∧
    (t.getV vF).toNat = (s.getV vF).toNat / 2 ∧ u.getV vF = 0#8) ∧
  (∀ s : State, ∃ t u, execShlWith .latched vF s = .next t ∧ execShlWith .sequential vF s = .next u ∧
    (t.getV vF).toNat = (s.getV vF).toNat * 2 % 256 ∧
    (u.getV vF).toNat = (s.getV vF).toNat / 128 * 2) ∧
  (∀ (m : AluRead) (x y : Reg) (s : State), x ≠ vF → y ≠ vF →
    execSubWith m x y s = execSubWith .latched x y s ∧
    execSubnWith m x y s = execSubnWith .latched x y s ∧
    execShrWith m x s = execShrWith .latched x s ∧ execShlWith m x s = execShlWith .latched x s) ∧
  (∀ (x y : Reg) (s : State),
    exec (.sub x y) s = execSubWith aluReadMode x y s ∧
    exec (.subn x y) s = execSubnWith aluReadMode x y s ∧
    exec (.shr x y) s = execShrWith aluReadMode x s ∧ exec (.shl x y) s = execShlWith aluReadMode x s)

/-- R182: RND writes the drawn byte masked by nn and consumes one draw. The draw is a free value: the
opaque `Config.randomByte` at the model's own counter (log 4). -/
def Obligations.RandomMasked : Prop :=
  ∀ (x : Reg) (nn : Byte) (s : State),
    Reads (0xC#4 ++ x ++ nn) (.rnd x nn) ∧
    ∃ t, exec (.rnd x nn) s = .next t ∧ t.pc = s.pc + 2#16 ∧ Keeps [.v, .draws] s t ∧
      t.draws = s.draws + 1 ∧
      ∀ r, t.getV r = if r = x then Config.randomByte s.draws &&& nn else s.getV r

/-! ### Index register and memory transfers (spec/43_index_memory.md) -/

/-- R200, R202: LD I and LD F: I, and no flag. -/
def Obligations.IndexLoads : Prop :=
  ∀ (nnn : Addr12) (x : Reg) (s : State),
    Reads (0xA#4 ++ nnn) (.ldI nnn) ∧ Reads (0xF#4 ++ x ++ 0x29#8) (.ldF x) ∧
    (∃ t, exec (.ldI nnn) s = .next t ∧ t.pc = s.pc + 2#16 ∧ t.ireg.toNat = nnn.toNat ∧
      t.getV vF = s.getV vF) ∧
    (∃ t, exec (.ldF x) s = .next t ∧ t.pc = s.pc + 2#16 ∧
      t.ireg.toNat = (s.getV x).toNat * 5 ∧ t.getV vF = s.getV vF)

/-- R201: ADD I, Vx, modulo 65536 (the spec's own decision D11, log 6), no flag, no fault. -/
def Obligations.IndexAddWraps : Prop :=
  ∀ (x : Reg) (s : State),
    Reads (0xF#4 ++ x ++ 0x1E#8) (.addI x) ∧
    ∃ t, exec (.addI x) s = .next t ∧ t.pc = s.pc + 2#16 ∧ Keeps [.ireg] s t ∧
      t.ireg.toNat = (s.ireg.toNat + (s.getV x).toNat) % 65536

/-- R203: LD B stores the three decimal digits, or latches MemoryOutOfBounds (log 9). -/
def Obligations.BcdStored : Prop :=
  ∀ (x : Reg) (s : State),
    Reads (0xF#4 ++ x ++ 0x33#8) (.ldB x) ∧
    (s.ireg.toNat + 2 < 4096 →
      ∃ t, exec (.ldB x) s = .next t ∧ t.pc = s.pc + 2#16 ∧ Keeps [.mem] s t ∧
        (t.byteAt s.ireg.toNat).toNat = (s.getV x).toNat / 100 ∧
        (t.byteAt (s.ireg.toNat + 1)).toNat = (s.getV x).toNat / 10 % 10 ∧
        (t.byteAt (s.ireg.toNat + 2)).toNat = (s.getV x).toNat % 10 ∧
        ∀ a, a < s.ireg.toNat ∨ s.ireg.toNat + 3 ≤ a → t.byteAt a = s.byteAt a) ∧
    (4096 ≤ s.ireg.toNat + 2 → exec (.ldB x) s =
      .next { s with fault := some ⟨.memoryOutOfBounds, some (0xF#4 ++ x ++ 0x33#8), s.pc⟩ })

/-- R204: LD [I], Vx stores V[0] to V[x], or latches MemoryOutOfBounds (log 9). -/
def Obligations.RegistersStored : Prop :=
  ∀ (x : Reg) (s : State),
    Reads (0xF#4 ++ x ++ 0x55#8) (.storeRegs x) ∧
    (s.ireg.toNat + x.toNat < 4096 →
      ∃ t, exec (.storeRegs x) s = .next t ∧ t.pc = s.pc + 2#16 ∧ Keeps [.mem] s t ∧
        (∀ k : Reg, k.toNat ≤ x.toNat → t.byteAt (s.ireg.toNat + k.toNat) = s.getV k) ∧
        ∀ a, a < s.ireg.toNat ∨ s.ireg.toNat + x.toNat < a → t.byteAt a = s.byteAt a) ∧
    (4096 ≤ s.ireg.toNat + x.toNat → exec (.storeRegs x) s =
      .next { s with fault := some ⟨.memoryOutOfBounds, some (0xF#4 ++ x ++ 0x55#8), s.pc⟩ })

/-- R205: LD Vx, [I] loads V[0] to V[x], or latches MemoryOutOfBounds (log 9). -/
def Obligations.RegistersLoaded : Prop :=
  ∀ (x : Reg) (s : State),
    Reads (0xF#4 ++ x ++ 0x65#8) (.loadRegs x) ∧
    (s.ireg.toNat + x.toNat < 4096 →
      ∃ t, exec (.loadRegs x) s = .next t ∧ t.pc = s.pc + 2#16 ∧ Keeps [.v] s t ∧
        ∀ k : Reg, t.getV k =
          if k.toNat ≤ x.toNat then s.byteAt (s.ireg.toNat + k.toNat) else s.getV k) ∧
    (4096 ≤ s.ireg.toNat + x.toNat → exec (.loadRegs x) s =
      .next { s with fault := some ⟨.memoryOutOfBounds, some (0xF#4 ++ x ++ 0x65#8), s.pc⟩ })

/-- R73: Fx55 followed by Fx65 at the same I reads back what was stored, whatever the registers and
PC hold in between. -/
def Obligations.StoreThenLoadReadsBack : Prop :=
  ∀ (x : Reg) (s : State), s.ireg.toNat + x.toNat < 4096 →
    ∃ t, exec (.storeRegs x) s = .next t ∧
      ∀ (regs : Vector Byte 16) (pc : Word),
        ∃ u, exec (.loadRegs x) { t with v := regs, pc := pc } = .next u ∧
          ∀ k : Reg, k.toNat ≤ x.toNat → u.getV k = s.getV k

/-- R66, R76: two bytes stored by Fx55 are fetched as one big-endian word by the very next fetch of
that address, even or odd. -/
def Obligations.FetchSeesStores : Prop :=
  ∀ (x : Reg) (s : State), 1 ≤ x.toNat → s.ireg.toNat + x.toNat < 4096 →
    ∃ t, exec (.storeRegs x) s = .next t ∧
      fetch { t with pc := s.ireg } = some (s.getV 0 ++ s.getV 1)

/-! ### Display (spec/44_display.md) -/

/-- R230: CLS clears every cell, whatever was there, and does not write VF. -/
def Obligations.ClearsScreen : Prop :=
  ∀ (d : Nibble) (s : State),
    (d = 0#4 → Reads (0x0#4 ++ d ++ 0xE0#8) (.cls d)) ∧
    decodeWith .loose (0x0#4 ++ d ++ 0xE0#8) = some (.cls d) ∧
    ∃ t, exec (.cls d) s = .next t ∧ t.pc = s.pc + 2#16 ∧ t.getV vF = s.getV vF ∧
      ∀ i, FrameBuffer.flat t.fb i = false

/-- R231: DRW toggles exactly the visible cells under a 1-bit of the sprite and reports in VF whether
one of them was on; or latches MemoryOutOfBounds (log 9). That bit 7 is the leftmost pixel is the
spec's own decision D13 from general knowledge (log 7). -/
def Obligations.SpriteDrawn : Prop :=
  ∀ (x y : Reg) (n : Nibble) (s : State),
    Reads (0xD#4 ++ x ++ (y ++ n)) (.drw x y n) ∧
    ((n = 0#4 ∨ s.ireg.toNat + n.toNat - 1 < 4096) →
      ∃ t, exec (.drw x y n) s = .next t ∧ t.pc = s.pc + 2#16 ∧ Keeps [.v, .fb] s t ∧
        (∀ px py, px < 64 → py < 32 →
          (spriteOver x y n s px py →
            FrameBuffer.cell t.fb px py = !FrameBuffer.cell s.fb px py) ∧
          (¬ spriteOver x y n s px py →
            FrameBuffer.cell t.fb px py = FrameBuffer.cell s.fb px py)) ∧
        (t.getV vF = 0#8 ∨ t.getV vF = 1#8) ∧
        (t.getV vF = 1#8 ↔ ∃ px py, px < 64 ∧ py < 32 ∧ spriteOver x y n s px py ∧
          FrameBuffer.cell s.fb px py = true) ∧
        ∀ r, r ≠ vF → t.getV r = s.getV r) ∧
    (n ≠ 0#4 → 4096 ≤ s.ireg.toNat + n.toNat - 1 → exec (.drw x y n) s =
      .next { s with fault := some ⟨.memoryOutOfBounds, some (0xD#4 ++ x ++ (y ++ n)), s.pc⟩ })

/-- R231, R233: R231's loop over pixels is the XOR of each visible row with the shifted sprite byte.
That bit 7 is the leftmost pixel is the spec's own decision D13 from general knowledge (log 7); that
the leftmost column is the most significant bit of a row is the model's choice (log 17). -/
def Obligations.PixelLoopIsRowXor : Prop :=
  ∀ (fb : FrameBuffer) (x0 y0 : Nat) (rows : List Byte),
    drawSprite fb x0 y0 rows = maskDraw x0 y0 rows (fb, false)

/-- R232: the double-draw law. Which cells lie under the sprite rests on the bit order, the spec's own
decision D13 from general knowledge (log 7), and n = 0 on its decision D18 (log 6). -/
def Obligations.DoubleDrawRestores : Prop :=
  ∀ (x y : Reg) (n : Nibble) (s : State), x ≠ vF → y ≠ vF →
    (n = 0#4 ∨ s.ireg.toNat + n.toNat - 1 < 4096) →
    ∃ t u, exec (.drw x y n) s = .next t ∧ exec (.drw x y n) t = .next u ∧ u.fb = s.fb ∧
      (u.getV vF = 1#8 ↔ ∃ px py, px < 64 ∧ py < 32 ∧ spriteOver x y n s px py ∧
        FrameBuffer.cell s.fb px py = false)

/-! ### Keypad and timers (spec/45_keys_timers.md) -/

/-- R250, R251: SKP and SKNP test the key that Vx names and clear nothing, or latch InvalidKeyIndex
(log 9). -/
def Obligations.KeySkips : Prop :=
  ∀ (x : Reg) (s : State),
    Reads (0xE#4 ++ x ++ 0x9E#8) (.skp x) ∧ Reads (0xE#4 ++ x ++ 0xA1#8) (.sknp x) ∧
    (∀ k : Fin 16, (s.getV x).toNat = k.val →
      (∃ t, exec (.skp x) s = .next t ∧ Keeps [] s t ∧
        t.pc = if s.getKey k = true then s.pc + 4#16 else s.pc + 2#16) ∧
      (∃ t, exec (.sknp x) s = .next t ∧ Keeps [] s t ∧
        t.pc = if s.getKey k = true then s.pc + 2#16 else s.pc + 4#16)) ∧
    (16 ≤ (s.getV x).toNat →
      exec (.skp x) s =
        .next { s with fault := some ⟨.invalidKeyIndex, some (0xE#4 ++ x ++ 0x9E#8), s.pc⟩ } ∧
      exec (.sknp x) s =
        .next { s with fault := some ⟨.invalidKeyIndex, some (0xE#4 ++ x ++ 0xA1#8), s.pc⟩ })

/-- R253: LD Vx, K takes the lowest pressed key and clears its flag alone; with none pressed nothing
changes, PC included. -/
def Obligations.KeyWaitTakesLowest : Prop :=
  ∀ (x : Reg) (s : State),
    Reads (0xF#4 ++ x ++ 0x0A#8) (.ldVxK x) ∧
    (∀ k : Fin 16, s.getKey k = true → (∀ j : Fin 16, j < k → s.getKey j = false) →
      ∃ t, exec (.ldVxK x) s = .next t ∧ t.pc = s.pc + 2#16 ∧
        (t.getV x).toNat = k.val ∧ (x ≠ vF → t.getV vF = s.getV vF) ∧
        ∀ j, t.getKey j = if j = k then false else s.getKey j) ∧
    ((∀ j : Fin 16, s.getKey j = false) → exec (.ldVxK x) s = .next s)

/-- R252, R254, R255: the timer transfers. Which instruction moves which timer is the spec's own
decision D14 from general knowledge (log 8). -/
def Obligations.TimerTransfers : Prop :=
  ∀ (x : Reg) (s : State),
    Reads (0xF#4 ++ x ++ 0x07#8) (.ldVxDt x) ∧ Reads (0xF#4 ++ x ++ 0x15#8) (.ldDtVx x) ∧
    Reads (0xF#4 ++ x ++ 0x18#8) (.ldStVx x) ∧
    (∃ t, exec (.ldVxDt x) s = .next t ∧ t.pc = s.pc + 2#16 ∧ Keeps [.v] s t ∧
      ∀ r, t.getV r = if r = x then s.dt else s.getV r) ∧
    (∃ t, exec (.ldDtVx x) s = .next t ∧ t.pc = s.pc + 2#16 ∧ Keeps [.dt] s t ∧
      t.dt = s.getV x) ∧
    (∃ t, exec (.ldStVx x) s = .next t ∧ t.pc = s.pc + 2#16 ∧ Keeps [.st] s t ∧
      t.st = s.getV x)

/-! ### Transactions (spec/60_exceptions.md, spec/70_reset_and_hazards.md) -/

/-- R291: Tick takes one from each timer that is not 0, whatever the other holds, and touches nothing
else; on a halted core it does nothing (R286). -/
def Obligations.TickDecrements : Prop :=
  ∀ s : State,
    (s.fault = none → Keeps [.dt, .st] s (tick s) ∧ (tick s).pc = s.pc ∧
      (tick s).dt = (if s.dt = 0#8 then 0#8 else s.dt - 1#8) ∧
      (tick s).st = (if s.st = 0#8 then 0#8 else s.st - 1#8)) ∧
    (s.fault ≠ none → tick s = s)

/-- R293: k Ticks in a row with nothing between take k from each timer, saturating at 0. -/
def Obligations.TicksCountDown : Prop :=
  ∀ (k : Nat) (s : State), s.fault = none →
    (ticks k s).dt.toNat = s.dt.toNat - k ∧ (ticks k s).st.toNat = s.st.toNat - k

/-- R296: KeyDown and KeyUp set one flag and touch nothing else, on a halted core too; and the arbiter
runs each under its own name. That they leave the stage of the run is the model's choice (log 12). -/
def Obligations.KeyEventsSetOneFlag : Prop :=
  (∀ (k : Fin 16) (z : Session),
    z.apply (.keyDown k) = .next (.done, ⟨z.stage, keyDown k z.core⟩) ∧
    z.apply (.keyUp k) = .next (.done, ⟨z.stage, keyUp k z.core⟩)) ∧
  ∀ (k : Fin 16) (s : State),
    Keeps [.key] s (keyDown k s) ∧ Keeps [.key] s (keyUp k s) ∧
    (keyDown k s).pc = s.pc ∧ (keyUp k s).pc = s.pc ∧
    (∀ j, (keyDown k s).getKey j = if j = k then true else s.getKey j) ∧
    (∀ j, (keyUp k s).getKey j = if j = k then false else s.getKey j)

/-- R320, R284: Reset, halted or not, leaves the reset state and a run that may Load, and is what
clears FAULT. That it may come at any time and leaves the count of draws is the model's choice
(log 11). -/
def Obligations.ResetRestarts : Prop :=
  ∀ z : Session, ∃ z', z.apply .reset = .next (.done, z') ∧ z'.stage = .fresh ∧
    z'.core.fault = none ∧ z'.core.pc = 0x0200#16 ∧ Keeps [.draws] State.reset z'.core ∧
    z'.core.draws = z.core.draws ∧ ∀ rom, rom.length ≤ 3584 → ∃ z'', z'.apply (.load rom) = .next (.done, z'')

/-- R322: Load copies a ROM of at most 3584 bytes to 0x200 upward and touches nothing else; a larger
one is answered RomTooLarge and nothing changes. -/
def Obligations.LoadCopiesRom : Prop :=
  ∀ (rom : List Byte) (s : State),
    (rom.length ≤ 3584 → ∃ t, loadRom rom s = (.ok, t) ∧ Keeps [.mem] s t ∧ t.pc = s.pc ∧
      (∀ k (h : k < rom.length), t.byteAt (0x200 + k) = rom[k]) ∧
      ∀ a, a < 0x200 ∨ 0x200 + rom.length ≤ a → t.byteAt a = s.byteAt a) ∧
    (3584 < rom.length → loadRom rom s = (.romTooLarge, s))

/-- R322, R323: in a fresh run Load makes the run started with the core that `loadRom` gives, or ends
it by name where that answers RomTooLarge. The stage and the end by name are the model's (logs 12
and 13). -/
def Obligations.LoadStartsRun : Prop :=
  ∀ (rom : List Byte) (z : Session), z.stage = .fresh →
    (rom.length ≤ 3584 → ∃ t, loadRom rom z.core = (.ok, t) ∧
      z.apply (.load rom) = .next (.done, ⟨.started, t⟩)) ∧
    (3584 < rom.length → z.apply (.load rom) = .fault .romTooLarge)

/-- R71, R121: in a run the arbiter's Step is the step of the core and its Tick the tick of the core.
The stage is the model's choice (log 12), and so is the stop it passes on (log 10). -/
def Obligations.StepAndTickInRun : Prop :=
  ∀ z : Session,
    (∀ t, step z.core = .next t → z.apply .step = .next (.done, ⟨.started, t⟩)) ∧
    (∀ r, step z.core = .fault r → z.apply .step = .fault r) ∧
    z.apply .tick = .next (.done, ⟨z.stage, tick z.core⟩)

/-- R323 (the spec's own decision D21, log 12): once a Load or a Step is made, every later Load of
the run is refused, whatever transactions other than Reset come between. -/
def Obligations.SecondLoadRefused : Prop :=
  ∀ (z z' : Session) (resp : Response) (first : Transaction) (trs : List Transaction)
    (rom : List Byte),
    (first = .step ∨ ∃ rom', first = .load rom') → .reset ∉ trs →
    z.apply first = .next (resp, z') →
    ∀ z'', z'.run trs = some z'' → z''.apply (.load rom) = .refused .loadAfterStart

/-- R294, R297, R281: the three reads answer the current values and change nothing. -/
def Obligations.ReadsChangeNothing : Prop :=
  ∀ z : Session,
    z.apply .readSound = .next (.sound (decide (z.core.st ≠ 0#8)), z) ∧
    z.apply .readFault = .next (.latch z.core.fault, z) ∧
    ∃ cells, z.apply .readFB = .next (.screen cells, z) ∧ cells.length = 2048 ∧
      ∀ px py, px < 64 → py < 32 →
        cells[py * 64 + px]? = some (FrameBuffer.cell z.core.fb px py)

/-- R128, R129: a step in Idle or in KeyWait changes nothing. -/
def Obligations.WaitingStepsChangeNothing : Prop :=
  ∀ s : State, Idle s ∨ KeyWait s → step s = .next s

/-- R129, R333: in Idle, under a fair schedule of Steps and Ticks, both timers reach 0, with PC where
it was and no fault. -/
def Obligations.IdleTimersRunOut : Prop :=
  ∀ (s : State) (sched : Nat → Transaction), Idle s → FairSchedule sched →
    (∀ n, sched n = .step ∨ sched n = .tick) →
    ∃ n z, Session.run ⟨.started, s⟩ ((List.range n).map sched) = some z ∧
      z.core.dt = 0#8 ∧ z.core.st = 0#8 ∧ z.core.pc = s.pc ∧ z.core.fault = none
end

