-- ==== Sys2Proof/Laws/State.lean ====
section
/-!
SUPPORT. What each named update of the state does to each field, once, by `rfl`, so that no later
proof unfolds a record update.
-/

namespace Sys2Proof.Machine

/-! ### setV -/

@[simp] theorem State.setV_mem (s : State) (x : Reg) (b : Byte) : (s.setV x b).mem = s.mem := rfl
@[simp] theorem State.setV_v (s : State) (x : Reg) (b : Byte) : (s.setV x b).v = s.v.set x.toNat b x.isLt := rfl
@[simp] theorem State.setV_ireg (s : State) (x : Reg) (b : Byte) : (s.setV x b).ireg = s.ireg := rfl
@[simp] theorem State.setV_pc (s : State) (x : Reg) (b : Byte) : (s.setV x b).pc = s.pc := rfl
@[simp] theorem State.setV_sp (s : State) (x : Reg) (b : Byte) : (s.setV x b).sp = s.sp := rfl
@[simp] theorem State.setV_stack (s : State) (x : Reg) (b : Byte) : (s.setV x b).stack = s.stack := rfl
@[simp] theorem State.setV_dt (s : State) (x : Reg) (b : Byte) : (s.setV x b).dt = s.dt := rfl
@[simp] theorem State.setV_st (s : State) (x : Reg) (b : Byte) : (s.setV x b).st = s.st := rfl
@[simp] theorem State.setV_fb (s : State) (x : Reg) (b : Byte) : (s.setV x b).fb = s.fb := rfl
@[simp] theorem State.setV_key (s : State) (x : Reg) (b : Byte) : (s.setV x b).key = s.key := rfl
@[simp] theorem State.setV_fault (s : State) (x : Reg) (b : Byte) : (s.setV x b).fault = s.fault := rfl
@[simp] theorem State.setV_draws (s : State) (x : Reg) (b : Byte) : (s.setV x b).draws = s.draws := rfl

/-! ### advance -/

@[simp] theorem State.advance_mem (s : State) : (s.advance).mem = s.mem := rfl
@[simp] theorem State.advance_v (s : State) : (s.advance).v = s.v := rfl
@[simp] theorem State.advance_ireg (s : State) : (s.advance).ireg = s.ireg := rfl
@[simp] theorem State.advance_pc (s : State) : (s.advance).pc = s.pc + 2#16 := rfl
@[simp] theorem State.advance_sp (s : State) : (s.advance).sp = s.sp := rfl
@[simp] theorem State.advance_stack (s : State) : (s.advance).stack = s.stack := rfl
@[simp] theorem State.advance_dt (s : State) : (s.advance).dt = s.dt := rfl
@[simp] theorem State.advance_st (s : State) : (s.advance).st = s.st := rfl
@[simp] theorem State.advance_fb (s : State) : (s.advance).fb = s.fb := rfl
@[simp] theorem State.advance_key (s : State) : (s.advance).key = s.key := rfl
@[simp] theorem State.advance_fault (s : State) : (s.advance).fault = s.fault := rfl
@[simp] theorem State.advance_draws (s : State) : (s.advance).draws = s.draws := rfl

/-! ### rewind -/

@[simp] theorem State.rewind_mem (s : State) : (s.rewind).mem = s.mem := rfl
@[simp] theorem State.rewind_v (s : State) : (s.rewind).v = s.v := rfl
@[simp] theorem State.rewind_ireg (s : State) : (s.rewind).ireg = s.ireg := rfl
@[simp] theorem State.rewind_pc (s : State) : (s.rewind).pc = s.pc - 2#16 := rfl
@[simp] theorem State.rewind_sp (s : State) : (s.rewind).sp = s.sp := rfl
@[simp] theorem State.rewind_stack (s : State) : (s.rewind).stack = s.stack := rfl
@[simp] theorem State.rewind_dt (s : State) : (s.rewind).dt = s.dt := rfl
@[simp] theorem State.rewind_st (s : State) : (s.rewind).st = s.st := rfl
@[simp] theorem State.rewind_fb (s : State) : (s.rewind).fb = s.fb := rfl
@[simp] theorem State.rewind_key (s : State) : (s.rewind).key = s.key := rfl
@[simp] theorem State.rewind_fault (s : State) : (s.rewind).fault = s.fault := rfl
@[simp] theorem State.rewind_draws (s : State) : (s.rewind).draws = s.draws := rfl

/-! ### jump -/

@[simp] theorem State.jump_mem (s : State) (target : Word) : (s.jump target).mem = s.mem := rfl
@[simp] theorem State.jump_v (s : State) (target : Word) : (s.jump target).v = s.v := rfl
@[simp] theorem State.jump_ireg (s : State) (target : Word) : (s.jump target).ireg = s.ireg := rfl
@[simp] theorem State.jump_pc (s : State) (target : Word) : (s.jump target).pc = target := rfl
@[simp] theorem State.jump_sp (s : State) (target : Word) : (s.jump target).sp = s.sp := rfl
@[simp] theorem State.jump_stack (s : State) (target : Word) : (s.jump target).stack = s.stack := rfl
@[simp] theorem State.jump_dt (s : State) (target : Word) : (s.jump target).dt = s.dt := rfl
@[simp] theorem State.jump_st (s : State) (target : Word) : (s.jump target).st = s.st := rfl
@[simp] theorem State.jump_fb (s : State) (target : Word) : (s.jump target).fb = s.fb := rfl
@[simp] theorem State.jump_key (s : State) (target : Word) : (s.jump target).key = s.key := rfl
@[simp] theorem State.jump_fault (s : State) (target : Word) : (s.jump target).fault = s.fault := rfl
@[simp] theorem State.jump_draws (s : State) (target : Word) : (s.jump target).draws = s.draws := rfl

/-! ### storeBytes -/

@[simp] theorem State.storeBytes_mem (s : State) (a : Nat) (ws : List Byte) : (s.storeBytes a ws).mem = s.mem.writeBytes a ws := rfl
@[simp] theorem State.storeBytes_v (s : State) (a : Nat) (ws : List Byte) : (s.storeBytes a ws).v = s.v := rfl
@[simp] theorem State.storeBytes_ireg (s : State) (a : Nat) (ws : List Byte) : (s.storeBytes a ws).ireg = s.ireg := rfl
@[simp] theorem State.storeBytes_pc (s : State) (a : Nat) (ws : List Byte) : (s.storeBytes a ws).pc = s.pc := rfl
@[simp] theorem State.storeBytes_sp (s : State) (a : Nat) (ws : List Byte) : (s.storeBytes a ws).sp = s.sp := rfl
@[simp] theorem State.storeBytes_stack (s : State) (a : Nat) (ws : List Byte) : (s.storeBytes a ws).stack = s.stack := rfl
@[simp] theorem State.storeBytes_dt (s : State) (a : Nat) (ws : List Byte) : (s.storeBytes a ws).dt = s.dt := rfl
@[simp] theorem State.storeBytes_st (s : State) (a : Nat) (ws : List Byte) : (s.storeBytes a ws).st = s.st := rfl
@[simp] theorem State.storeBytes_fb (s : State) (a : Nat) (ws : List Byte) : (s.storeBytes a ws).fb = s.fb := rfl
@[simp] theorem State.storeBytes_key (s : State) (a : Nat) (ws : List Byte) : (s.storeBytes a ws).key = s.key := rfl
@[simp] theorem State.storeBytes_fault (s : State) (a : Nat) (ws : List Byte) : (s.storeBytes a ws).fault = s.fault := rfl
@[simp] theorem State.storeBytes_draws (s : State) (a : Nat) (ws : List Byte) : (s.storeBytes a ws).draws = s.draws := rfl

/-! ### setKey -/

@[simp] theorem State.setKey_mem (s : State) (k : Fin 16) (b : Bool) : (s.setKey k b).mem = s.mem := rfl
@[simp] theorem State.setKey_v (s : State) (k : Fin 16) (b : Bool) : (s.setKey k b).v = s.v := rfl
@[simp] theorem State.setKey_ireg (s : State) (k : Fin 16) (b : Bool) : (s.setKey k b).ireg = s.ireg := rfl
@[simp] theorem State.setKey_pc (s : State) (k : Fin 16) (b : Bool) : (s.setKey k b).pc = s.pc := rfl
@[simp] theorem State.setKey_sp (s : State) (k : Fin 16) (b : Bool) : (s.setKey k b).sp = s.sp := rfl
@[simp] theorem State.setKey_stack (s : State) (k : Fin 16) (b : Bool) : (s.setKey k b).stack = s.stack := rfl
@[simp] theorem State.setKey_dt (s : State) (k : Fin 16) (b : Bool) : (s.setKey k b).dt = s.dt := rfl
@[simp] theorem State.setKey_st (s : State) (k : Fin 16) (b : Bool) : (s.setKey k b).st = s.st := rfl
@[simp] theorem State.setKey_fb (s : State) (k : Fin 16) (b : Bool) : (s.setKey k b).fb = s.fb := rfl
@[simp] theorem State.setKey_key (s : State) (k : Fin 16) (b : Bool) : (s.setKey k b).key = s.key.set k b := rfl
@[simp] theorem State.setKey_fault (s : State) (k : Fin 16) (b : Bool) : (s.setKey k b).fault = s.fault := rfl
@[simp] theorem State.setKey_draws (s : State) (k : Fin 16) (b : Bool) : (s.setKey k b).draws = s.draws := rfl

/-! ### consumeDraw -/

@[simp] theorem State.consumeDraw_mem (s : State) : (s.consumeDraw).mem = s.mem := rfl
@[simp] theorem State.consumeDraw_v (s : State) : (s.consumeDraw).v = s.v := rfl
@[simp] theorem State.consumeDraw_ireg (s : State) : (s.consumeDraw).ireg = s.ireg := rfl
@[simp] theorem State.consumeDraw_pc (s : State) : (s.consumeDraw).pc = s.pc := rfl
@[simp] theorem State.consumeDraw_sp (s : State) : (s.consumeDraw).sp = s.sp := rfl
@[simp] theorem State.consumeDraw_stack (s : State) : (s.consumeDraw).stack = s.stack := rfl
@[simp] theorem State.consumeDraw_dt (s : State) : (s.consumeDraw).dt = s.dt := rfl
@[simp] theorem State.consumeDraw_st (s : State) : (s.consumeDraw).st = s.st := rfl
@[simp] theorem State.consumeDraw_fb (s : State) : (s.consumeDraw).fb = s.fb := rfl
@[simp] theorem State.consumeDraw_key (s : State) : (s.consumeDraw).key = s.key := rfl
@[simp] theorem State.consumeDraw_fault (s : State) : (s.consumeDraw).fault = s.fault := rfl
@[simp] theorem State.consumeDraw_draws (s : State) : (s.consumeDraw).draws = s.draws + 1 := rfl

/-! ### setVs: only the general registers -/

@[simp] theorem State.setVs_mem (s : State) (k : Nat) (bs : List Byte) : (s.setVs k bs).mem = s.mem := by
  induction bs generalizing s k with
  | nil => rfl
  | cons b bs ih => exact (ih _ _).trans rfl

@[simp] theorem State.setVs_ireg (s : State) (k : Nat) (bs : List Byte) : (s.setVs k bs).ireg = s.ireg := by
  induction bs generalizing s k with
  | nil => rfl
  | cons b bs ih => exact (ih _ _).trans rfl

@[simp] theorem State.setVs_pc (s : State) (k : Nat) (bs : List Byte) : (s.setVs k bs).pc = s.pc := by
  induction bs generalizing s k with
  | nil => rfl
  | cons b bs ih => exact (ih _ _).trans rfl

@[simp] theorem State.setVs_sp (s : State) (k : Nat) (bs : List Byte) : (s.setVs k bs).sp = s.sp := by
  induction bs generalizing s k with
  | nil => rfl
  | cons b bs ih => exact (ih _ _).trans rfl

@[simp] theorem State.setVs_stack (s : State) (k : Nat) (bs : List Byte) : (s.setVs k bs).stack = s.stack := by
  induction bs generalizing s k with
  | nil => rfl
  | cons b bs ih => exact (ih _ _).trans rfl

@[simp] theorem State.setVs_dt (s : State) (k : Nat) (bs : List Byte) : (s.setVs k bs).dt = s.dt := by
  induction bs generalizing s k with
  | nil => rfl
  | cons b bs ih => exact (ih _ _).trans rfl

@[simp] theorem State.setVs_st (s : State) (k : Nat) (bs : List Byte) : (s.setVs k bs).st = s.st := by
  induction bs generalizing s k with
  | nil => rfl
  | cons b bs ih => exact (ih _ _).trans rfl

@[simp] theorem State.setVs_fb (s : State) (k : Nat) (bs : List Byte) : (s.setVs k bs).fb = s.fb := by
  induction bs generalizing s k with
  | nil => rfl
  | cons b bs ih => exact (ih _ _).trans rfl

@[simp] theorem State.setVs_key (s : State) (k : Nat) (bs : List Byte) : (s.setVs k bs).key = s.key := by
  induction bs generalizing s k with
  | nil => rfl
  | cons b bs ih => exact (ih _ _).trans rfl

@[simp] theorem State.setVs_fault (s : State) (k : Nat) (bs : List Byte) : (s.setVs k bs).fault = s.fault := by
  induction bs generalizing s k with
  | nil => rfl
  | cons b bs ih => exact (ih _ _).trans rfl

@[simp] theorem State.setVs_draws (s : State) (k : Nat) (bs : List Byte) : (s.setVs k bs).draws = s.draws := by
  induction bs generalizing s k with
  | nil => rfl
  | cons b bs ih => exact (ih _ _).trans rfl

/-! ### Reset (spec/10_state.md R40) -/

@[simp] theorem State.reset_mem : State.reset.mem = [] := rfl
@[simp] theorem State.reset_ireg : State.reset.ireg = 0#16 := rfl
@[simp] theorem State.reset_pc : State.reset.pc = 0x200#16 := rfl
@[simp] theorem State.reset_sp : State.reset.sp = 0#8 := rfl
@[simp] theorem State.reset_dt : State.reset.dt = 0#8 := rfl
@[simp] theorem State.reset_st : State.reset.st = 0#8 := rfl
@[simp] theorem State.reset_fault : State.reset.fault = none := rfl
@[simp] theorem State.reset_draws : State.reset.draws = 0 := rfl

end Sys2Proof.Machine
end

