-- ==== Sys2Proof/Laws/Registers.lean ====
section
/-!
SUPPORT. Reading a register, a byte or a key after each named update.
-/

namespace Sys2Proof.Machine

/-- Two register reads agree where the register files do. -/
theorem getV_congr {s t : State} (h : t.v = s.v) (r : Reg) : t.getV r = s.getV r := by
  simp [State.getV, h]

/-- Two byte reads agree where the memories do. -/
theorem byteAt_congr {s t : State} (h : t.mem = s.mem) (a : Nat) : t.byteAt a = s.byteAt a := by
  simp [State.byteAt, h]

/-- A register read after a register write. -/
theorem getV_setV (s : State) (x r : Reg) (b : Byte) :
    (s.setV x b).getV r = if r = x then b else s.getV r := by
  simp only [State.getV, State.setV, Vector.getElem_set]
  by_cases h : r = x
  · simp [h]
  · have : x.toNat ≠ r.toNat := fun e => h (BitVec.eq_of_toNat_eq e.symm)
    simp [h, this]

@[simp] theorem getV_setV_self (s : State) (x : Reg) (b : Byte) : (s.setV x b).getV x = b := by
  simp [getV_setV]

@[simp] theorem getV_advance (s : State) (r : Reg) : s.advance.getV r = s.getV r := rfl
@[simp] theorem getV_rewind (s : State) (r : Reg) : s.rewind.getV r = s.getV r := rfl
@[simp] theorem getV_jump (s : State) (t : Word) (r : Reg) : (s.jump t).getV r = s.getV r := rfl
@[simp] theorem getV_storeBytes (s : State) (a : Nat) (ws : List Byte) (r : Reg) :
    (s.storeBytes a ws).getV r = s.getV r := rfl
@[simp] theorem getV_setKey (s : State) (k : Fin 16) (b : Bool) (r : Reg) :
    (s.setKey k b).getV r = s.getV r := rfl
@[simp] theorem getV_consumeDraw (s : State) (r : Reg) : s.consumeDraw.getV r = s.getV r := rfl

@[simp] theorem byteAt_setV (s : State) (x : Reg) (b : Byte) (a : Nat) :
    (s.setV x b).byteAt a = s.byteAt a := rfl
@[simp] theorem byteAt_setVs (s : State) (k : Nat) (bs : List Byte) (a : Nat) :
    (s.setVs k bs).byteAt a = s.byteAt a := byteAt_congr (by simp) a
@[simp] theorem byteAt_advance (s : State) (a : Nat) : s.advance.byteAt a = s.byteAt a := rfl
@[simp] theorem byteAt_rewind (s : State) (a : Nat) : s.rewind.byteAt a = s.byteAt a := rfl
@[simp] theorem byteAt_jump (s : State) (t : Word) (a : Nat) : (s.jump t).byteAt a = s.byteAt a := rfl
@[simp] theorem byteAt_setKey (s : State) (k : Fin 16) (b : Bool) (a : Nat) :
    (s.setKey k b).byteAt a = s.byteAt a := rfl
@[simp] theorem byteAt_consumeDraw (s : State) (a : Nat) : s.consumeDraw.byteAt a = s.byteAt a := rfl

/-- A key flag after a write of one flag. -/
theorem getKey_setKey (s : State) (k j : Fin 16) (b : Bool) :
    (s.setKey k b).getKey j = if j = k then b else s.getKey j := by
  simp only [State.getKey, State.setKey, Fin.getElem_fin, Vector.getElem_set]
  by_cases h : j = k
  · simp [h]
  · have : (k : Nat) ≠ (j : Nat) := fun e => h (Fin.ext e.symm)
    simp [h, this]

/-- The rewind takes back the advance: PC is a again (spec/40_step.md R128). -/
theorem rewind_advance (s : State) : s.advance.rewind = s := by
  simp [State.advance, State.rewind]

/-- A register read after a run of register writes that stays inside the register file. -/
theorem getV_setVs (s : State) (k : Nat) (bs : List Byte) (r : Reg) (hk : k + bs.length ≤ 16) :
    (s.setVs k bs).getV r =
      if h : k ≤ r.toNat ∧ r.toNat < k + bs.length then bs[r.toNat - k]'(by omega)
      else s.getV r := by
  induction bs generalizing s k with
  | nil => simp [State.setVs]
  | cons b bs ih =>
    simp only [List.length_cons] at hk
    rw [State.setVs, ih _ _ (by omega), getV_setV]
    have hk16 : (BitVec.ofNat 4 k).toNat = k := by simp; omega
    by_cases h1 : k + 1 ≤ r.toNat ∧ r.toNat < k + 1 + bs.length
    · have h2 : k ≤ r.toNat ∧ r.toNat < k + (b :: bs).length := by simp; omega
      rw [dif_pos h1, dif_pos h2]
      simp [show r.toNat - k = (r.toNat - (k + 1)) + 1 by omega]
    · rw [dif_neg h1]
      by_cases h4 : r = BitVec.ofNat 4 k
      · have hr : r.toNat = k := by rw [h4, hk16]
        rw [if_pos h4, dif_pos (by simp; omega)]
        simp [hr]
      · have hr : r.toNat ≠ k := fun e => h4 (BitVec.eq_of_toNat_eq (by rw [hk16, e]))
        rw [if_neg h4, dif_neg (by simp; omega)]

/-- The list of V[0] to V[x] has x + 1 bytes. -/
@[simp] theorem length_firstVs (s : State) (x : Reg) : (s.firstVs x).length = x.toNat + 1 := by
  simp [State.firstVs]

/-- The k-th byte of the list V[0] to V[x] is V[k]. -/
theorem getElem_firstVs (s : State) (x : Reg) (k : Nat) (h : k < (s.firstVs x).length) :
    (s.firstVs x)[k] = s.getV (BitVec.ofNat 4 k) := by
  simp [State.firstVs]

@[simp] theorem length_bytesAt (s : State) (a n : Nat) : (s.bytesAt a n).length = n := by
  simp [State.bytesAt]

theorem getElem_bytesAt (s : State) (a n k : Nat) (h : k < (s.bytesAt a n).length) :
    (s.bytesAt a n)[k] = s.byteAt (a + k) := by
  simp [State.bytesAt]

/-- Reading a list of bytes depends on the memory alone. -/
theorem bytesAt_congr {s t : State} (h : t.mem = s.mem) (a n : Nat) :
    t.bytesAt a n = s.bytesAt a n := by
  simp [State.bytesAt, State.byteAt, h]

end Sys2Proof.Machine
end

