-- ==== Sys2Proof/Laws/Memory.lean ====
section
/-!
SUPPORT. Memory: reads after writes, and that every memory operation keeps the canonical form.
-/

namespace Sys2Proof.Machine

/-- Without entries for an address it reads as it did at reset. -/
theorem Memory.read_filter (m : Memory) (a b : Nat) :
    Memory.read (m.filter fun c => c.1 != a) b =
      if b = a then Memory.background a else m.read b := by
  induction m with
  | nil => by_cases h : b = a <;> simp [Memory.read, h]
  | cons c m ih =>
    obtain ⟨p, w⟩ := c
    by_cases hp : p = a
    · subst hp
      by_cases hb : b = p
      · simp [hb] at ih ⊢; exact ih
      · simp [hb, Ne.symm hb, Memory.read] at ih ⊢; exact ih
    · by_cases hb : b = a
      · subst hb
        simp [hp, Memory.read] at ih ⊢; exact ih
      · simp only [List.filter_cons, bne_iff_ne, ne_eq, hp, not_false_eq_true, ↓reduceIte,
          Memory.read, hb] at ih ⊢
        rw [ih]

/-- A read after an insertion into a list with no entry for the address. -/
theorem Memory.read_insert (m : Memory) (a : Nat) (w : Byte) (b : Nat) (h : ∀ c ∈ m, c.1 ≠ a) :
    Memory.read (Memory.insert a w m) b = if b = a then w else m.read b := by
  induction m with
  | nil =>
    by_cases hb : b = a
    · simp [Memory.insert, Memory.read, hb]
    · simp [Memory.insert, Memory.read, hb, Ne.symm hb]
  | cons c m ih =>
    obtain ⟨p, u⟩ := c
    have hp : p ≠ a := h (p, u) (by simp)
    have ih := ih fun c hc => h c (by simp [hc])
    unfold Memory.insert
    split
    · by_cases hb : b = a
      · simp [Memory.read, hb]
      · simp [Memory.read, hb, Ne.symm hb]
    · by_cases hb : b = a
      · subst hb; simp [Memory.read, hp, ih]
      · simp only [Memory.read, ih, hb, ↓reduceIte]

/-- A read after a write: the byte written at its address, every other byte as it was. -/
theorem Memory.read_write (m : Memory) (a : Nat) (w : Byte) (b : Nat) (ha : a < 4096) :
    Memory.read (Memory.write m a w) b = if b = a then w else m.read b := by
  unfold Memory.write
  rw [if_pos ha]
  split
  · rename_i hw
    rw [Memory.read_filter]
    by_cases hb : b = a <;> simp [hb, hw]
  · rw [Memory.read_insert _ _ _ _ (by simp), Memory.read_filter]
    by_cases hb : b = a <;> simp [hb]

/-- A read after writing a run of bytes that all exist. -/
theorem Memory.read_writeBytes (m : Memory) (a : Nat) (ws : List Byte) (b : Nat)
    (ha : a + ws.length ≤ 4096) :
    Memory.read (Memory.writeBytes m a ws) b =
      if h : a ≤ b ∧ b < a + ws.length then ws[b - a]'(by omega) else m.read b := by
  induction ws generalizing m a with
  | nil => simp [Memory.writeBytes]
  | cons w ws ih =>
    simp only [List.length_cons] at ha
    rw [Memory.writeBytes, ih _ _ (by omega), Memory.read_write _ _ _ _ (by omega)]
    by_cases h1 : a + 1 ≤ b ∧ b < a + 1 + ws.length
    · have h2 : a ≤ b ∧ b < a + (w :: ws).length := by simp; omega
      rw [dif_pos h1, dif_pos h2]
      simp [show b - a = (b - (a + 1)) + 1 by omega]
    · rw [dif_neg h1]
      by_cases h4 : b = a
      · rw [if_pos h4, dif_pos (by simp; omega)]
        simp [h4]
      · rw [if_neg h4, dif_neg (by simp; omega)]

/-- Reading a byte of the state after `storeBytes`. -/
theorem byteAt_storeBytes (s : State) (a : Nat) (ws : List Byte) (b : Nat)
    (ha : a + ws.length ≤ 4096) :
    (s.storeBytes a ws).byteAt b =
      if h : a ≤ b ∧ b < a + ws.length then ws[b - a]'(by omega) else s.byteAt b :=
  Memory.read_writeBytes s.mem a ws b ha

/-- Which entries a list holds after an insertion. -/
theorem Memory.mem_insert {m : Memory} {a : Nat} {w : Byte} {c : Host.Cell} :
    c ∈ Memory.insert a w m ↔ c = (a, w) ∨ c ∈ m := by
  induction m with
  | nil => simp [Memory.insert]
  | cons d m ih =>
    unfold Memory.insert
    split
    · simp
    · simp only [List.mem_cons, ih]; tauto

/-- An insertion keeps the addresses rising. -/
theorem Memory.insert_rising {m : Memory} {a : Nat} {w : Byte}
    (hm : m.Pairwise fun p q => p.1 < q.1) (h : ∀ c ∈ m, c.1 ≠ a) :
    (Memory.insert a w m).Pairwise fun p q => p.1 < q.1 := by
  induction m with
  | nil => simp [Memory.insert]
  | cons d m ih =>
    have hd := List.pairwise_cons.mp hm
    have hne : d.1 ≠ a := h d (by simp)
    unfold Memory.insert
    split
    · rename_i hlt
      refine List.pairwise_cons.mpr ⟨?_, hm⟩
      intro c hc
      rcases List.mem_cons.mp hc with rfl | hc
      · exact hlt
      · exact lt_trans hlt (hd.1 c hc)
    · refine List.pairwise_cons.mpr ⟨?_, ih hd.2 fun c hc => h c (by simp [hc])⟩
      intro c hc
      rcases Memory.mem_insert.mp hc with rfl | hc
      · simp only; omega
      · exact hd.1 c hc

/-- A write keeps the canonical form. -/
theorem Memory.write_wf {m : Memory} (a : Nat) (w : Byte) (hm : m.wf) : (m.write a w).wf := by
  obtain ⟨hp, hc⟩ := hm
  have hf : (m.filter fun c => c.1 != a).Pairwise fun p q => p.1 < q.1 := hp.filter _
  unfold Memory.write
  split
  · rename_i ha
    split
    · exact ⟨hf, fun c h => hc c (List.mem_filter.mp h).1⟩
    · rename_i hw
      refine ⟨Memory.insert_rising hf (by simp), fun c h => ?_⟩
      rcases Memory.mem_insert.mp h with rfl | h
      · exact ⟨ha, hw⟩
      · exact hc c (List.mem_filter.mp h).1
  · exact ⟨hp, hc⟩

/-- Writing a run of bytes keeps the canonical form. -/
theorem Memory.writeBytes_wf {m : Memory} (a : Nat) (ws : List Byte) (hm : m.wf) :
    (m.writeBytes a ws).wf := by
  induction ws generalizing m a with
  | nil => exact hm
  | cons w ws ih => exact ih _ (Memory.write_wf a w hm)

/-- Reset's memory is in canonical form. -/
theorem reset_mem_wf : State.reset.mem.wf := by decide

/-- Two canonical memories that read alike are the same list. -/
theorem Memory.ext_of_wf {m m' : Memory} (hm : m.wf) (hm' : m'.wf)
    (h : ∀ a, m.read a = m'.read a) : m = m' := by
  have key : ∀ {m : Memory}, m.wf → ∀ c : Host.Cell,
      c ∈ m ↔ m.read c.1 = c.2 ∧ c.2 ≠ Memory.background c.1 := by
    intro m hm c
    induction m with
    | nil => simp only [List.not_mem_nil, Memory.read, false_iff]; rintro ⟨h1, h2⟩; exact h2 h1.symm
    | cons d m ih =>
      obtain ⟨hp, hc⟩ := hm
      have hd := List.pairwise_cons.mp hp
      have ih := ih ⟨hd.2, fun c h => hc c (by simp [h])⟩
      simp only [List.mem_cons, ih, Memory.read]
      by_cases hdc : d.1 = c.1
      · have hd2 := (hc d (by simp)).2
        have hno : c ∉ m := fun hcm => by have := hd.1 c hcm; omega
        rw [← ih]
        simp only [hno, or_false, hdc, ↓reduceIte]
        constructor
        · rintro rfl; exact ⟨rfl, hd2⟩
        · rintro ⟨h1, -⟩; exact Prod.ext hdc.symm h1.symm
      · simp only [hdc, ↓reduceIte, or_iff_right_iff_imp]
        rintro rfl; exact absurd rfl hdc
  refine List.Perm.eq_of_pairwise (le := fun p q : Host.Cell => p.1 < q.1) ?_ hm.1 hm'.1 ?_
  · intro a b _ _ h1 h2; omega
  · refine (List.perm_ext_iff_of_nodup ?_ ?_).mpr fun c => by rw [key hm, key hm', h]
    · exact hm.1.imp fun h e => by subst e; omega
    · exact hm'.1.imp fun h e => by subst e; omega

end Sys2Proof.Machine
end

