-- ==== Sys2Proof/Laws/Encoding.lean ====
section
/-!
SUPPORT. The fields of a word built from its digits, for each word shape of spec/30_encoding.md R91,
and the masks of R95 field by field.
-/

namespace Sys2Proof

/-- The bits of a word of shape h, x, nn. -/
theorem bit_xnn (h x : Nibble) (nn : Byte) (i : Nat) :
    BitVec.getLsbD (w := 16) (h ++ x ++ nn) i =
      if i < 8 then nn.getLsbD i else if i < 12 then x.getLsbD (i - 8) else h.getLsbD (i - 12) := by
  change BitVec.getLsbD (h ++ x ++ nn) i = _
  rw [BitVec.getLsbD_append, BitVec.getLsbD_append]
  by_cases h8 : i < 8
  · simp [h8]
  · by_cases h12 : i < 12
    · simp [h8, h12, show i - 8 < 4 by omega]
    · simp [h8, h12, show ¬ i - 8 < 4 by omega, show i - 8 - 4 = i - 12 by omega]

/-- The bits of a word of shape h, nnn. -/
theorem bit_nnn (h : Nibble) (nnn : Addr12) (i : Nat) :
    BitVec.getLsbD (w := 16) (h ++ nnn) i =
      if i < 12 then nnn.getLsbD i else h.getLsbD (i - 12) := by
  change BitVec.getLsbD (h ++ nnn) i = _
  rw [BitVec.getLsbD_append]

/-- The bits of a byte of two digits y, n. -/
theorem bit_yn (y n : Nibble) (i : Nat) :
    BitVec.getLsbD (w := 8) (y ++ n) i =
      if i < 4 then n.getLsbD i else y.getLsbD (i - 4) := by
  change BitVec.getLsbD (y ++ n) i = _
  rw [BitVec.getLsbD_append]


@[simp] theorem fieldH_xnn (h x : Nibble) (nn : Byte) : fieldH (h ++ x ++ nn) = h := by
  apply BitVec.eq_of_getLsbD_eq; intro i hi
  rw [fieldH, BitVec.getLsbD_extractLsb', bit_xnn]; simp [hi, show ¬ 12 + i < 8 by omega]

@[simp] theorem fieldX_xnn (h x : Nibble) (nn : Byte) : fieldX (h ++ x ++ nn) = x := by
  apply BitVec.eq_of_getLsbD_eq; intro i hi
  rw [fieldX, BitVec.getLsbD_extractLsb', bit_xnn]; simp [hi, show 8 + i < 12 by omega]

@[simp] theorem fieldNN_xnn (h x : Nibble) (nn : Byte) : fieldNN (h ++ x ++ nn) = nn := by
  apply BitVec.eq_of_getLsbD_eq; intro i hi
  rw [fieldNN, BitVec.getLsbD_extractLsb', bit_xnn]; simp [hi]

@[simp] theorem fieldH_xyn (h x y n : Nibble) : fieldH (h ++ x ++ (y ++ n)) = h :=
  fieldH_xnn h x (y ++ n)

@[simp] theorem fieldX_xyn (h x y n : Nibble) : fieldX (h ++ x ++ (y ++ n)) = x :=
  fieldX_xnn h x (y ++ n)

@[simp] theorem fieldNN_xyn (h x y n : Nibble) : fieldNN (h ++ x ++ (y ++ n)) = y ++ n :=
  fieldNN_xnn h x (y ++ n)

@[simp] theorem fieldY_xyn (h x y n : Nibble) : fieldY (h ++ x ++ (y ++ n)) = y := by
  apply BitVec.eq_of_getLsbD_eq; intro i hi
  rw [fieldY, BitVec.getLsbD_extractLsb', bit_xnn, bit_yn]; simp [hi, show 4 + i < 8 by omega]

@[simp] theorem fieldN_xyn (h x y n : Nibble) : fieldN (h ++ x ++ (y ++ n)) = n := by
  apply BitVec.eq_of_getLsbD_eq; intro i hi
  rw [fieldN, BitVec.getLsbD_extractLsb', bit_xnn, bit_yn]; simp [hi, show i < 8 by omega]

@[simp] theorem fieldH_nnn (h : Nibble) (nnn : Addr12) : fieldH (h ++ nnn) = h := by
  apply BitVec.eq_of_getLsbD_eq; intro i hi
  rw [fieldH, BitVec.getLsbD_extractLsb', bit_nnn]; simp [hi]

@[simp] theorem fieldNNN_nnn (h : Nibble) (nnn : Addr12) : fieldNNN (h ++ nnn) = nnn := by
  apply BitVec.eq_of_getLsbD_eq; intro i hi
  rw [fieldNNN, BitVec.getLsbD_extractLsb', bit_nnn]; simp [hi]

/-- A word is its fields h, x, nn. -/
theorem word_eq_xnn (w : Word) : fieldH w ++ fieldX w ++ fieldNN w = w := by
  apply BitVec.eq_of_getLsbD_eq; intro i hi
  rw [bit_xnn]
  simp only [fieldH, fieldX, fieldNN, BitVec.getLsbD_extractLsb']
  split
  · simp [*]
  · split
    · simp [show i - 8 < 4 by omega, show 8 + (i - 8) = i by omega]
    · simp [show i - 12 < 4 by omega, show 12 + (i - 12) = i by omega]

/-- nn is y then n. -/
theorem nn_eq_yn (w : Word) : fieldY w ++ fieldN w = fieldNN w := by
  apply BitVec.eq_of_getLsbD_eq; intro i hi
  rw [bit_yn]
  simp only [fieldY, fieldN, fieldNN, BitVec.getLsbD_extractLsb']
  split
  · simp [*]
  · simp [hi, show i - 4 < 4 by omega, show 4 + (i - 4) = i by omega]

/-- A word is its fields h, nnn. -/
theorem word_eq_nnn (w : Word) : fieldH w ++ fieldNNN w = w := by
  apply BitVec.eq_of_getLsbD_eq; intro i hi
  rw [bit_nnn]
  simp only [fieldH, fieldNNN, BitVec.getLsbD_extractLsb']
  split
  · simp [*]
  · simp [show i - 12 < 4 by omega, show 12 + (i - 12) = i by omega]

/-- The two bytes of a word, put together again, are the word (spec/20_memory.md R65). -/
theorem wordOfBytes_bytes (w : Word) :
    wordOfBytes (w.extractLsb' 8 8) (w.extractLsb' 0 8) = w := by
  apply BitVec.eq_of_getLsbD_eq; intro i hi
  change BitVec.getLsbD (w.extractLsb' 8 8 ++ w.extractLsb' 0 8) i = _
  rw [BitVec.getLsbD_append, BitVec.getLsbD_extractLsb', BitVec.getLsbD_extractLsb']
  by_cases h8 : i < 8
  · simp [h8]
  · simp [h8, show i - 8 < 8 by omega, show 8 + (i - 8) = i by omega]

/-- A mask of a word of shape h, x, nn masks each field. -/
theorem and_xnn (h x h' x' : Nibble) (nn nn' : Byte) :
    ((h ++ x ++ nn : Word) &&& (h' ++ x' ++ nn') : Word) = (h &&& h') ++ (x &&& x') ++ (nn &&& nn') := by
  apply BitVec.eq_of_getLsbD_eq; intro i hi
  rw [BitVec.getLsbD_and, bit_xnn, bit_xnn, bit_xnn]
  split <;> [skip; split] <;> simp

/-- A mask of a word of shape h, nnn masks each field. -/
theorem and_nnn (h h' : Nibble) (n n' : Addr12) :
    ((h ++ n : Word) &&& (h' ++ n') : Word) = (h &&& h') ++ (n &&& n') := by
  apply BitVec.eq_of_getLsbD_eq; intro i hi
  rw [BitVec.getLsbD_and, bit_nnn, bit_nnn, bit_nnn]
  split <;> simp

/-- A mask of a byte of two digits masks each digit. -/
theorem and_yn (h h' : Nibble) (n n' : Nibble) :
    ((h ++ n : Byte) &&& (h' ++ n') : Byte) = (h &&& h') ++ (n &&& n') := by
  apply BitVec.eq_of_getLsbD_eq; intro i hi
  rw [BitVec.getLsbD_and, bit_yn, bit_yn, bit_yn]
  split <;> simp

theorem and_F (h : Nibble) : h &&& 0xF#4 = h := BitVec.and_allOnes

theorem and_FF (nn : Byte) : nn &&& 0xFF#8 = nn := BitVec.and_allOnes

/-- A word under the mask F000 is its h. -/
theorem and_F000 (w : Word) : w &&& 0xF000#16 = fieldH w ++ 0#4 ++ 0#8 := by
  conv => lhs; rw [← word_eq_xnn w, show 0xF000#16 = 0xF#4 ++ 0x0#4 ++ 0x00#8 from rfl]
  rw [and_xnn, and_F, BitVec.and_zero, BitVec.and_zero]

/-- A word under the mask F0FF is its h and nn. -/
theorem and_F0FF (w : Word) : w &&& 0xF0FF#16 = fieldH w ++ 0#4 ++ fieldNN w := by
  conv => lhs; rw [← word_eq_xnn w, show 0xF0FF#16 = 0xF#4 ++ 0x0#4 ++ 0xFF#8 from rfl]
  rw [and_xnn, and_F, and_FF, BitVec.and_zero]

/-- A word under the mask F00F is its h and n. -/
theorem and_F00F (w : Word) : w &&& 0xF00F#16 = fieldH w ++ 0#4 ++ (0#4 ++ fieldN w) := by
  conv =>
    lhs
    rw [← word_eq_xnn w, ← nn_eq_yn w,
      show 0xF00F#16 = 0xF#4 ++ 0x0#4 ++ (0x0#4 ++ 0xF#4) from rfl]
  rw [and_xnn, and_yn, and_F, and_F, BitVec.and_zero, BitVec.and_zero]

/-- The mask F000 selects on h. -/
theorem and_F000_eq_iff (w : Word) (h : Nibble) :
    w &&& 0xF000#16 = h ++ 0#4 ++ 0#8 ↔ fieldH w = h := by
  rw [and_F000]
  exact ⟨fun e => by simpa only [fieldH_xnn] using congrArg fieldH e, fun e => by rw [e]⟩

/-- The mask F0FF selects on h and nn. -/
theorem and_F0FF_eq_iff (w : Word) (h : Nibble) (nn : Byte) :
    w &&& 0xF0FF#16 = h ++ 0#4 ++ nn ↔ fieldH w = h ∧ fieldNN w = nn := by
  rw [and_F0FF]
  refine ⟨fun e => ⟨?_, ?_⟩, fun e => by rw [e.1, e.2]⟩
  · simpa only [fieldH_xnn] using congrArg fieldH e
  · simpa only [fieldNN_xnn] using congrArg fieldNN e

/-- The mask F00F selects on h and n. -/
theorem and_F00F_eq_iff (w : Word) (h n : Nibble) :
    w &&& 0xF00F#16 = h ++ 0#4 ++ (0#4 ++ n) ↔ fieldH w = h ∧ fieldN w = n := by
  rw [and_F00F]
  refine ⟨fun e => ⟨?_, ?_⟩, fun e => by rw [e.1, e.2]⟩
  · simpa only [fieldH_xyn] using congrArg fieldH e
  · simpa only [fieldN_xyn] using congrArg fieldN e

/-! ### The bytes of a word -/

/-- The first byte of a word is its high byte, the second its low byte. -/
theorem bytesOfWord_wordOfBytes (hi lo : Byte) : bytesOfWord (wordOfBytes hi lo) = [hi, lo] := by
  have e : ∀ i, BitVec.getLsbD (wordOfBytes hi lo) i =
      if i < 8 then lo.getLsbD i else hi.getLsbD (i - 8) := fun i => by
    change BitVec.getLsbD (hi ++ lo) i = _
    rw [BitVec.getLsbD_append]
  have h1 : (wordOfBytes hi lo).extractLsb' 8 8 = hi := by
    apply BitVec.eq_of_getLsbD_eq; intro i hi8
    rw [BitVec.getLsbD_extractLsb', e]; simp [hi8]
  have h2 : (wordOfBytes hi lo).extractLsb' 0 8 = lo := by
    apply BitVec.eq_of_getLsbD_eq; intro i hi8
    rw [BitVec.getLsbD_extractLsb', e]; simp [hi8]
  rw [bytesOfWord, h1, h2]

/-- The word of a jump as the spec writes it, 0x1000 | nnn (spec/40_step.md R129). -/
theorem jumpWord_eq (nnn : Addr12) : (0x1000#16 ||| nnn.setWidth 16) = 0x1#4 ++ nnn := by
  apply BitVec.eq_of_getLsbD_eq; intro i hi
  rw [bit_nnn, BitVec.getLsbD_or, BitVec.getLsbD_setWidth]
  have h : (0x1000#16).getLsbD i = if i < 12 then false else (0x1#4).getLsbD (i - 12) := by
    interval_cases i <;> rfl
  rw [h]
  split
  · simp [hi]
  · rename_i hge; rw [BitVec.getLsbD_of_ge nnn i (by omega)]; simp

/-- An address below 4096 is its own low 12 bits. -/
theorem setWidth_low (p : Word) (h : p.toNat < 4096) : (p.setWidth 12).setWidth 16 = p := by
  apply BitVec.eq_of_toNat_eq; simp; omega

end Sys2Proof
end

