-- ==== Sys2Proof/Laws/PerInstr.lean ====
section
/-!
SUPPORT. Statements about every instruction as syntax, one lemma for each constructor.
-/

namespace Sys2Proof.Laws.EncodeFitsRow

/-- The instruction's row is one of the 34 of spec/30_encoding.md R95, and its word under STRICT
matches that row's mask. -/
def Statement (i : Instr) : Prop :=
  i.row ∈ opcodeMap ∧ (i.wellFormed .strict = true → i.row.covers (encode i) = true)

/-- A row selected on h covers every word with that h (shape h, x, nn). -/
theorem covers_h (h x : Nibble) (nn : Byte) :
    OpcodeRow.covers ⟨0xF#4 ++ 0x0#4 ++ 0x00#8, h ++ 0#4 ++ 0#8⟩ (h ++ x ++ nn) = true := by
  rw [OpcodeRow.covers, and_xnn, and_F, BitVec.and_zero, BitVec.and_zero, beq_self_eq_true]

/-- A row selected on h and n covers every word with those digits. -/
theorem covers_hn (h x y n : Nibble) :
    OpcodeRow.covers ⟨0xF#4 ++ 0x0#4 ++ (0x0#4 ++ 0xF#4), h ++ 0#4 ++ (0#4 ++ n)⟩
      (h ++ x ++ (y ++ n)) = true := by
  rw [OpcodeRow.covers, and_xnn, and_yn, and_F, and_F, BitVec.and_zero, BitVec.and_zero,
    beq_self_eq_true]

/-- A row selected on h and nn covers every word with them. -/
theorem covers_hnn (h x : Nibble) (nn : Byte) :
    OpcodeRow.covers ⟨0xF#4 ++ 0x0#4 ++ 0xFF#8, h ++ 0#4 ++ nn⟩ (h ++ x ++ nn) = true := by
  rw [OpcodeRow.covers, and_xnn, and_F, and_FF, BitVec.and_zero, beq_self_eq_true]

/-- A row selected on h covers every word with that h (shape h, nnn). -/
theorem covers_nnn (h : Nibble) (nnn : Addr12) :
    OpcodeRow.covers ⟨0xF#4 ++ 0x000#12, h ++ 0#12⟩ (h ++ nnn) = true := by
  rw [OpcodeRow.covers, and_nnn, and_F, BitVec.and_zero, beq_self_eq_true]

theorem cls (d : Nibble) : Statement (.cls d) := by
  refine ⟨by simp [Instr.row, opcodeMap], fun h => ?_⟩
  have hd : d = 0#4 := by simpa [Instr.wellFormed, Instr.freeDigit] using h
  subst hd; rfl

theorem ret (d : Nibble) : Statement (.ret d) := by
  refine ⟨by simp [Instr.row, opcodeMap], fun h => ?_⟩
  have hd : d = 0#4 := by simpa [Instr.wellFormed, Instr.freeDigit] using h
  subst hd; rfl

theorem jp (nnn : Addr12) : Statement (.jp nnn) := by
  exact ⟨by simp [Instr.row, opcodeMap], fun _ => covers_nnn 0x1#4 nnn⟩

theorem call (nnn : Addr12) : Statement (.call nnn) := by
  exact ⟨by simp [Instr.row, opcodeMap], fun _ => covers_nnn 0x2#4 nnn⟩

theorem seImm (x : Reg) (nn : Byte) : Statement (.seImm x nn) := by
  exact ⟨by simp [Instr.row, opcodeMap], fun _ => covers_h 0x3#4 x nn⟩

theorem sneImm (x : Reg) (nn : Byte) : Statement (.sneImm x nn) := by
  exact ⟨by simp [Instr.row, opcodeMap], fun _ => covers_h 0x4#4 x nn⟩

theorem seReg (x : Reg) (y : Reg) (n : Nibble) : Statement (.seReg x y n) := by
  refine ⟨by simp [Instr.row, opcodeMap], fun h => ?_⟩
  have hn : n = 0#4 := by simpa [Instr.wellFormed, Instr.freeDigit] using h
  subst hn; exact covers_hn 0x5#4 x y 0x0#4

theorem ldImm (x : Reg) (nn : Byte) : Statement (.ldImm x nn) := by
  exact ⟨by simp [Instr.row, opcodeMap], fun _ => covers_h 0x6#4 x nn⟩

theorem addImm (x : Reg) (nn : Byte) : Statement (.addImm x nn) := by
  exact ⟨by simp [Instr.row, opcodeMap], fun _ => covers_h 0x7#4 x nn⟩

theorem ldReg (x : Reg) (y : Reg) : Statement (.ldReg x y) := by
  exact ⟨by simp [Instr.row, opcodeMap], fun _ => covers_hn 0x8#4 x y 0x0#4⟩

theorem orReg (x : Reg) (y : Reg) : Statement (.orReg x y) := by
  exact ⟨by simp [Instr.row, opcodeMap], fun _ => covers_hn 0x8#4 x y 0x1#4⟩

theorem andReg (x : Reg) (y : Reg) : Statement (.andReg x y) := by
  exact ⟨by simp [Instr.row, opcodeMap], fun _ => covers_hn 0x8#4 x y 0x2#4⟩

theorem xorReg (x : Reg) (y : Reg) : Statement (.xorReg x y) := by
  exact ⟨by simp [Instr.row, opcodeMap], fun _ => covers_hn 0x8#4 x y 0x3#4⟩

theorem addReg (x : Reg) (y : Reg) : Statement (.addReg x y) := by
  exact ⟨by simp [Instr.row, opcodeMap], fun _ => covers_hn 0x8#4 x y 0x4#4⟩

theorem sub (x : Reg) (y : Reg) : Statement (.sub x y) := by
  exact ⟨by simp [Instr.row, opcodeMap], fun _ => covers_hn 0x8#4 x y 0x5#4⟩

theorem shr (x : Reg) (y : Reg) : Statement (.shr x y) := by
  exact ⟨by simp [Instr.row, opcodeMap], fun _ => covers_hn 0x8#4 x y 0x6#4⟩

theorem subn (x : Reg) (y : Reg) : Statement (.subn x y) := by
  exact ⟨by simp [Instr.row, opcodeMap], fun _ => covers_hn 0x8#4 x y 0x7#4⟩

theorem shl (x : Reg) (y : Reg) : Statement (.shl x y) := by
  exact ⟨by simp [Instr.row, opcodeMap], fun _ => covers_hn 0x8#4 x y 0xE#4⟩

theorem sneReg (x : Reg) (y : Reg) (n : Nibble) : Statement (.sneReg x y n) := by
  refine ⟨by simp [Instr.row, opcodeMap], fun h => ?_⟩
  have hn : n = 0#4 := by simpa [Instr.wellFormed, Instr.freeDigit] using h
  subst hn; exact covers_hn 0x9#4 x y 0x0#4

theorem ldI (nnn : Addr12) : Statement (.ldI nnn) := by
  exact ⟨by simp [Instr.row, opcodeMap], fun _ => covers_nnn 0xA#4 nnn⟩

theorem jpV0 (nnn : Addr12) : Statement (.jpV0 nnn) := by
  exact ⟨by simp [Instr.row, opcodeMap], fun _ => covers_nnn 0xB#4 nnn⟩

theorem rnd (x : Reg) (nn : Byte) : Statement (.rnd x nn) := by
  exact ⟨by simp [Instr.row, opcodeMap], fun _ => covers_h 0xC#4 x nn⟩

theorem drw (x : Reg) (y : Reg) (n : Nibble) : Statement (.drw x y n) := by
  exact ⟨by simp [Instr.row, opcodeMap], fun _ => covers_h 0xD#4 x (y ++ n)⟩

theorem skp (x : Reg) : Statement (.skp x) := by
  exact ⟨by simp [Instr.row, opcodeMap], fun _ => covers_hnn 0xE#4 x 0x9E#8⟩

theorem sknp (x : Reg) : Statement (.sknp x) := by
  exact ⟨by simp [Instr.row, opcodeMap], fun _ => covers_hnn 0xE#4 x 0xA1#8⟩

theorem ldVxDt (x : Reg) : Statement (.ldVxDt x) := by
  exact ⟨by simp [Instr.row, opcodeMap], fun _ => covers_hnn 0xF#4 x 0x07#8⟩

theorem ldVxK (x : Reg) : Statement (.ldVxK x) := by
  exact ⟨by simp [Instr.row, opcodeMap], fun _ => covers_hnn 0xF#4 x 0x0A#8⟩

theorem ldDtVx (x : Reg) : Statement (.ldDtVx x) := by
  exact ⟨by simp [Instr.row, opcodeMap], fun _ => covers_hnn 0xF#4 x 0x15#8⟩

theorem ldStVx (x : Reg) : Statement (.ldStVx x) := by
  exact ⟨by simp [Instr.row, opcodeMap], fun _ => covers_hnn 0xF#4 x 0x18#8⟩

theorem addI (x : Reg) : Statement (.addI x) := by
  exact ⟨by simp [Instr.row, opcodeMap], fun _ => covers_hnn 0xF#4 x 0x1E#8⟩

theorem ldF (x : Reg) : Statement (.ldF x) := by
  exact ⟨by simp [Instr.row, opcodeMap], fun _ => covers_hnn 0xF#4 x 0x29#8⟩

theorem ldB (x : Reg) : Statement (.ldB x) := by
  exact ⟨by simp [Instr.row, opcodeMap], fun _ => covers_hnn 0xF#4 x 0x33#8⟩

theorem storeRegs (x : Reg) : Statement (.storeRegs x) := by
  exact ⟨by simp [Instr.row, opcodeMap], fun _ => covers_hnn 0xF#4 x 0x55#8⟩

theorem loadRegs (x : Reg) : Statement (.loadRegs x) := by
  exact ⟨by simp [Instr.row, opcodeMap], fun _ => covers_hnn 0xF#4 x 0x65#8⟩

/-- Every instruction. -/
theorem all (i : Instr) : Statement i := by
  cases i with
  | cls d => exact cls d
  | ret d => exact ret d
  | jp nnn => exact jp nnn
  | call nnn => exact call nnn
  | seImm x nn => exact seImm x nn
  | sneImm x nn => exact sneImm x nn
  | seReg x y n => exact seReg x y n
  | ldImm x nn => exact ldImm x nn
  | addImm x nn => exact addImm x nn
  | ldReg x y => exact ldReg x y
  | orReg x y => exact orReg x y
  | andReg x y => exact andReg x y
  | xorReg x y => exact xorReg x y
  | addReg x y => exact addReg x y
  | sub x y => exact sub x y
  | shr x y => exact shr x y
  | subn x y => exact subn x y
  | shl x y => exact shl x y
  | sneReg x y n => exact sneReg x y n
  | ldI nnn => exact ldI nnn
  | jpV0 nnn => exact jpV0 nnn
  | rnd x nn => exact rnd x nn
  | drw x y n => exact drw x y n
  | skp x => exact skp x
  | sknp x => exact sknp x
  | ldVxDt x => exact ldVxDt x
  | ldVxK x => exact ldVxK x
  | ldDtVx x => exact ldDtVx x
  | ldStVx x => exact ldStVx x
  | addI x => exact addI x
  | ldF x => exact ldF x
  | ldB x => exact ldB x
  | storeRegs x => exact storeRegs x
  | loadRegs x => exact loadRegs x

end Sys2Proof.Laws.EncodeFitsRow
end

