-- ==== Sys2Proof/Laws/Ops.lean ====
section
/-!
SUPPORT. One lemma, or a pair, for each shared operation: everything it can answer.
-/

namespace Sys2Proof

/-! ### fixedDigit (spec/30_encoding.md R98) -/

@[simp] theorem fixedDigit_zero (m : DecodeMode) (i : Instr) : fixedDigit m 0#4 i = some i := rfl

@[simp] theorem fixedDigit_loose (d : Nibble) (i : Instr) : fixedDigit .loose d i = some i := by
  unfold fixedDigit; split <;> rfl

theorem fixedDigit_strict (d : Nibble) (i : Instr) (h : d ≠ 0#4) : fixedDigit .strict d i = none := by
  simp [fixedDigit, h]

end Sys2Proof

namespace Sys2Proof.Machine

/-! ### Operand forms -/

theorem stackSlot_of (sp : Byte) (k : Fin 16) (h : sp.toNat = k.val) : stackSlot sp = some k := by
  simp [stackSlot, h]

theorem stackSlot_eq_some {sp : Byte} {k : Fin 16} (h : stackSlot sp = some k) :
    sp.toNat = k.val := by
  unfold stackSlot at h
  split at h
  · simp at h; simp [← h]
  · simp at h

theorem stackSlot_eq_none {sp : Byte} (h : stackSlot sp = none) : 16 ≤ sp.toNat := by
  unfold stackSlot at h
  split at h
  · simp at h
  · omega

theorem keyIndex_of (b : Byte) (k : Fin 16) (h : b.toNat = k.val) : keyIndex b = some k := by
  simp [keyIndex, h]

theorem keyIndex_none (b : Byte) (h : 16 ≤ b.toNat) : keyIndex b = none := by
  simp [keyIndex, Nat.not_lt.mpr h]

theorem keyIndex_eq_some {b : Byte} {k : Fin 16} (h : keyIndex b = some k) : b.toNat = k.val := by
  unfold keyIndex at h
  split at h
  · simp at h; simp [← h]
  · simp at h

theorem keyIndex_eq_none {b : Byte} (h : keyIndex b = none) : 16 ≤ b.toNat := by
  unfold keyIndex at h
  split at h
  · simp at h
  · omega

theorem inMemory_iff (a n : Nat) : inMemory a n = true ↔ n = 0 ∨ a + n ≤ 4096 := by
  simp [inMemory]

theorem inMemory_false_iff (a n : Nat) : inMemory a n = false ↔ n ≠ 0 ∧ 4096 < a + n := by
  simp [inMemory]

/-! ### Keypad -/

theorem firstPressed_eq_some {s : State} {k : Fin 16} (h : s.getKey k = true)
    (hlow : ∀ j, j < k → s.getKey j = false) : firstPressed s = some k := by
  unfold firstPressed
  cases e : (List.finRange 16).find? s.getKey with
  | none => simp [List.find?_eq_none] at e; simp [e k] at h
  | some j =>
    obtain ⟨hj, l₁, l₂, hl, hn⟩ := List.find?_eq_some_iff_append.mp e
    congr 1
    have hjk : ¬ j < k := fun hlt => by simp [hlow j hlt] at hj
    by_contra hne
    have hkj : k < j := by omega
    have hmem : k ∈ l₁ := by
      have hs : (List.finRange 16).Pairwise (· < ·) := by decide
      rw [hl] at hs
      have : k ∈ l₁ ++ j :: l₂ := hl ▸ List.mem_finRange k
      rcases List.mem_append.mp this with h1 | h1
      · exact h1
      · rcases List.mem_cons.mp h1 with h2 | h2
        · exact absurd h2.symm hne
        · have := (List.pairwise_append.mp hs).2.1
          have := List.rel_of_pairwise_cons this h2
          omega
    simpa [h] using hn k hmem

theorem firstPressed_eq_none {s : State} : firstPressed s = none ↔ ∀ k, s.getKey k = false := by
  simp [firstPressed, List.find?_eq_none]

/-! ### Skips, flags and shifts -/

/-- A skip always completes; PC moves by 4 or by 2 and nothing else changes. -/
theorem skipIf_next (c : Bool) (s : State) :
    skipIf c s = .next { s with pc := if c then s.pc + 4#16 else s.pc + 2#16 } := by
  cases c
  · rfl
  · simp only [skipIf, State.advance, if_true, BitVec.add_assoc]; rfl

theorem flagByte_true : flagByte true = 1#8 := rfl

theorem flagByte_false : flagByte false = 0#8 := rfl

theorem shrFlag_toNat (b : Byte) : (shrFlag b).toNat = b.toNat % 2 := by
  revert b; decide

theorem shlFlag_toNat (b : Byte) : (shlFlag b).toNat = b.toNat / 128 := by
  revert b; decide

/-- The two writes of a subtraction or shift: the result is what x holds even where x is VF. -/
theorem getV_flagThenResult (x r : Reg) (f b : Byte) (s : State) :
    ((s.advance.setV vF f).setV x b).getV r =
      if r = x then b else if r = vF then f else s.getV r := by
  rw [getV_setV, getV_setV, getV_advance]

/-! ### Fetch -/

theorem fetch_of_le {s : State} (h : s.pc.toNat ≤ 0xFFE) :
    fetch s = some (s.byteAt s.pc.toNat ++ s.byteAt (s.pc.toNat + 1)) := by
  rw [fetch, if_pos (by omega)]; rfl

theorem fetch_of_gt {s : State} (h : 0xFFE < s.pc.toNat) : fetch s = none := by
  rw [fetch, if_neg (by omega)]

/-- The fetch looks at PC and memory alone. -/
theorem fetch_congr {s t : State} (hp : t.pc = s.pc) (hm : t.mem = s.mem) : fetch t = fetch s := by
  simp [fetch, State.byteAt, hp, hm]

/-! ### Tick -/

theorem countDown_toNat (b : Byte) : (countDown b).toNat = b.toNat - 1 := by
  revert b; decide

end Sys2Proof.Machine
end

