-- ==== Sys2Proof/Laws/Step.lean ====
section
/-!
SUPPORT. What a step can do, and what an instruction can do, said once: the case lemmas every
statement over all instructions goes through.
-/

namespace Sys2Proof.Machine

/-- Every way a step answers a next state (spec/40_step.md R122). -/
theorem step_cases {s t : State} (h : step s = .next t) :
    (s.fault ≠ none ∧ t = s) ∨
    (s.fault = none ∧ 0xFFE < s.pc.toNat ∧
      t = { s with fault := some ⟨.memoryOutOfBounds, none, s.pc⟩ }) ∨
    (s.fault = none ∧ s.pc.toNat ≤ 0xFFE ∧ ∃ w, fetch s = some w ∧
      ((decode w = none ∧ t = s.advance) ∨ ∃ i, decode w = some i ∧ exec i s = .next t)) := by
  unfold step at h
  cases hf : s.fault with
  | some r =>
    rw [hf] at h; simp only [halted, Host.Outcome.next.injEq] at h
    exact .inl ⟨by simp, h.symm⟩
  | none =>
    rw [hf] at h; simp only at h
    by_cases hp : s.pc.toNat ≤ 0xFFE
    · cases hw : fetch s with
      | none => rw [fetch_of_le hp] at hw; simp at hw
      | some w =>
        rw [hw] at h; simp only at h
        refine .inr (.inr ⟨rfl, hp, w, rfl, ?_⟩)
        cases hd : decode w with
        | none =>
          rw [hd] at h; simp only [noMatch, Host.Outcome.next.injEq] at h
          exact .inl ⟨rfl, h.symm⟩
        | some i => rw [hd] at h; exact .inr ⟨i, rfl, h⟩
    · rw [fetch_of_gt (by omega)] at h
      simp only [takeFetchFault, Host.Outcome.next.injEq] at h
      exact .inr (.inl ⟨rfl, by omega, h.symm⟩)

/-- A core with no fault runs the instruction its fetch decodes to. -/
theorem step_of_decode {s : State} {w : Word} {i : Instr} (hf : s.fault = none)
    (hw : fetch s = some w) (hd : decode w = some i) : step s = exec i s := by
  simp only [step, hf, hw, hd]

/-- A core with no fault whose fetch fails latches that fault. -/
theorem step_of_no_fetch {s : State} (hf : s.fault = none) (hw : fetch s = none) :
    step s = .next { s with fault := some ⟨.memoryOutOfBounds, none, s.pc⟩ } := by
  unfold step; rw [hf, hw]; simp only [takeFetchFault]

/-- A halted core stays as it is (spec/60_exceptions.md R286). -/
theorem step_of_fault {s : State} (hf : s.fault ≠ none) : step s = .next s := by
  obtain ⟨r, hr⟩ := Option.ne_none_iff_exists'.mp hf
  simp only [step, hr, halted]

/-- A core with no fault passes a word that is no instruction. -/
theorem step_of_unmatched {s : State} {w : Word} (hf : s.fault = none)
    (hw : fetch s = some w) (hd : decode w = none) : step s = .next s.advance := by
  simp only [step, hf, hw, hd, noMatch]

/-- The placed word is the one fetched. -/
theorem fetch_withFetchWord (s : State) (w : Word) (hp : s.pc.toNat ≤ 0xFFE) :
    fetch (s.withFetchWord 16 w.toNat) = some w := by
  have hb : bytesOfWord (BitVec.ofNat 16 (w.toNat % 2 ^ 16)) =
      [w.extractLsb' 8 8, w.extractLsb' 0 8] := by
    rw [Nat.mod_eq_of_lt w.isLt, BitVec.ofNat_toNat, BitVec.setWidth_eq]; rfl
  have hr : ∀ a, (s.withFetchWord 16 w.toNat).byteAt a =
      (s.storeBytes s.pc.toNat [w.extractLsb' 8 8, w.extractLsb' 0 8]).byteAt a := fun a => by
    refine byteAt_congr ?_ a
    simp only [State.withFetchWord, hb]
  have h0 := byteAt_storeBytes s s.pc.toNat [w.extractLsb' 8 8, w.extractLsb' 0 8] s.pc.toNat
    (by simp; omega)
  have h1 := byteAt_storeBytes s s.pc.toNat [w.extractLsb' 8 8, w.extractLsb' 0 8] (s.pc.toNat + 1)
    (by simp; omega)
  rw [dif_pos (by simp)] at h0 h1
  have hpc : (s.withFetchWord 16 w.toNat).pc = s.pc := rfl
  rw [fetch, if_pos (by rw [hpc]; omega), hr, hr, hpc, h0, h1]
  simpa using wordOfBytes_bytes w

/-- Where the PC of a completed instruction can come from (spec/10_state.md R28). -/
def PcMoves (i : Instr) (s t : State) : Prop :=
  match i with
  | .ret _ => ∃ k : Fin 16, s.sp.toNat = k.val + 1 ∧ t.pc = s.stack[k]
  | .jp nnn | .call nnn => t.pc = zextAddr nnn
  | .jpV0 nnn => t.pc = zextAddr nnn + zextByte (s.getV 0)
  | .seImm _ _ | .sneImm _ _ | .seReg _ _ _ | .sneReg _ _ _ | .skp _ | .sknp _ =>
    t.pc = s.pc + 2#16 ∨ t.pc = s.pc + 4#16
  | .ldVxK _ => t.pc = s.pc + 2#16 ∨ t = s
  | _ => t.pc = s.pc + 2#16

/-- What a completed instruction does to SP and STACK (spec/10_state.md R29, R30). -/
def StackMoves (i : Instr) (s t : State) : Prop :=
  match i with
  | .ret _ => 1 ≤ s.sp.toNat ∧ s.sp.toNat ≤ 16 ∧ t.sp = s.sp - 1#8 ∧ t.stack = s.stack
  | .call _ => ∃ k : Fin 16, s.sp.toNat = k.val ∧ t.sp = s.sp + 1#8 ∧
      t.stack = s.stack.set k (s.pc + 2#16)
  | _ => t.sp = s.sp ∧ t.stack = s.stack

/-- What a completed instruction does to memory (spec/20_memory.md R70). -/
def MemMoves (i : Instr) (s t : State) : Prop :=
  match i with
  | .ldB x => s.ireg.toNat + 3 ≤ 4096 ∧ t.mem = s.mem.writeBytes s.ireg.toNat (bcdDigits (s.getV x))
  | .storeRegs x =>
    s.ireg.toNat + (x.toNat + 1) ≤ 4096 ∧ t.mem = s.mem.writeBytes s.ireg.toNat (s.firstVs x)
  | _ => t.mem = s.mem

/-- An instruction that answers a next state took the fault whose condition holds, changing nothing
but FAULT, or completed with no condition holding and FAULT as it was. -/
theorem exec_cases {i : Instr} {s t : State} (h : exec i s = .next t) :
    (∃ kind, faultCondition i s = some kind ∧
      t = { s with fault := some ⟨kind, some (encode i), s.pc⟩ }) ∨
    (faultCondition i s = none ∧ t.fault = s.fault ∧ PcMoves i s t ∧ StackMoves i s t ∧
      MemMoves i s t) := by
  cases i with
  | ret d =>
    simp only [exec, execRet] at h
    split at h
    · rename_i h0
      simp only [takeFault, Host.Outcome.next.injEq] at h
      exact .inl ⟨_, by simp [faultCondition, h0], h.symm⟩
    · rename_i h0
      split at h
      · rename_i k hk
        have := stackSlot_eq_some hk
        have h1 : s.sp.toNat = k.val + 1 := by
          have : s.sp.toNat ≠ 0 := fun e => h0 (BitVec.eq_of_toNat_eq e)
          bv_omega
        cases h
        refine .inr ⟨by simp [faultCondition, h0], rfl, ⟨k, h1, rfl⟩, ⟨?_, ?_, rfl, rfl⟩, rfl⟩ <;> omega
      · cases h
  | call nnn =>
    simp only [exec, execCall] at h
    split at h
    · rename_i h0
      simp only [takeFault, Host.Outcome.next.injEq] at h
      exact .inl ⟨_, by simp [faultCondition, h0], h.symm⟩
    · rename_i h0
      split at h
      · rename_i k hk
        cases h
        exact .inr ⟨by simp [faultCondition, h0], rfl, rfl, ⟨k, stackSlot_eq_some hk, rfl, rfl⟩, rfl⟩
      · cases h
  | seImm x nn | sneImm x nn | seReg x y n | sneReg x y n =>
    simp only [exec, execSeImm, execSneImm, execSeReg, execSneReg, skipIf_next,
      Host.Outcome.next.injEq] at h
    subst h
    refine .inr ⟨rfl, rfl, ?_, ⟨rfl, rfl⟩, rfl⟩
    simp only [PcMoves]; split <;> simp
  | skp x | sknp x =>
    simp only [exec, execSkp, execSknp] at h
    split at h
    · rename_i k hk
      have := keyIndex_eq_some hk
      simp only [skipIf_next, Host.Outcome.next.injEq] at h
      subst h
      refine .inr ⟨?_, rfl, ?_, ⟨rfl, rfl⟩, rfl⟩
      · simp only [faultCondition]; rw [if_neg]; bv_omega
      · simp only [PcMoves]; split <;> simp
    · rename_i hk
      have := keyIndex_eq_none hk
      simp only [takeFault, Host.Outcome.next.injEq] at h
      refine .inl ⟨_, ?_, h.symm⟩
      simp only [faultCondition]; rw [if_pos]; bv_omega
  | drw x y n =>
    simp only [exec, execDrw] at h
    split at h
    · rename_i hm
      rw [inMemory_iff] at hm
      cases h
      refine .inr ⟨?_, rfl, rfl, ⟨rfl, rfl⟩, rfl⟩
      simp only [faultCondition]; rw [if_neg]
      rintro ⟨h1, h2⟩
      have : n.toNat ≠ 0 := fun e => h1 (BitVec.eq_of_toNat_eq e)
      omega
    · rename_i hm
      rw [Bool.not_eq_true, inMemory_false_iff] at hm
      simp only [takeFault, Host.Outcome.next.injEq] at h
      refine .inl ⟨_, ?_, h.symm⟩
      simp only [faultCondition]; rw [if_pos]
      exact ⟨fun e => hm.1 (by simp [e]), by omega⟩
  | ldB x =>
    simp only [exec, execLdB] at h
    split at h
    · rename_i hm
      rw [inMemory_iff] at hm
      cases h
      refine .inr ⟨?_, rfl, rfl, ⟨rfl, rfl⟩, by omega, rfl⟩
      simp only [faultCondition]; rw [if_neg]; omega
    · rename_i hm
      rw [Bool.not_eq_true, inMemory_false_iff] at hm
      simp only [takeFault, Host.Outcome.next.injEq] at h
      refine .inl ⟨_, ?_, h.symm⟩
      simp only [faultCondition]; rw [if_pos]; omega
  | storeRegs x =>
    simp only [exec, execStoreRegs] at h
    split at h
    · rename_i hm
      rw [inMemory_iff] at hm
      cases h
      refine .inr ⟨?_, rfl, rfl, ⟨rfl, rfl⟩, by omega, rfl⟩
      simp only [faultCondition]; rw [if_neg]; omega
    · rename_i hm
      rw [Bool.not_eq_true, inMemory_false_iff] at hm
      simp only [takeFault, Host.Outcome.next.injEq] at h
      refine .inl ⟨_, ?_, h.symm⟩
      simp only [faultCondition]; rw [if_pos]; omega
  | loadRegs x =>
    simp only [exec, execLoadRegs] at h
    split at h
    · rename_i hm
      rw [inMemory_iff] at hm
      cases h
      refine .inr ⟨?_, by simp, by simp [PcMoves], ⟨by simp, by simp⟩, by simp [MemMoves]⟩
      simp only [faultCondition]; rw [if_neg]; omega
    · rename_i hm
      rw [Bool.not_eq_true, inMemory_false_iff] at hm
      simp only [takeFault, Host.Outcome.next.injEq] at h
      refine .inl ⟨_, ?_, h.symm⟩
      simp only [faultCondition]; rw [if_pos]; omega
  | ldVxK x =>
    simp only [exec, execLdVxK] at h
    split at h
    · cases h; exact .inr ⟨rfl, rfl, .inl rfl, ⟨rfl, rfl⟩, rfl⟩
    · rw [rewind_advance] at h; cases h; exact .inr ⟨rfl, rfl, .inr rfl, ⟨rfl, rfl⟩, rfl⟩
  | _ => cases h; exact .inr ⟨rfl, rfl, rfl, ⟨rfl, rfl⟩, rfl⟩

/-- With SP in its range every instruction answers a next state (spec/10_state.md R29). -/
theorem exec_next_of_sp (i : Instr) (s : State) (h : s.sp.toNat ≤ 16) : ∃ t, exec i s = .next t := by
  cases i <;> simp only [exec]
  case ret d =>
    simp only [execRet]; split
    · exact ⟨_, rfl⟩
    · rename_i h0
      have : s.sp.toNat ≠ 0 := fun e => h0 (BitVec.eq_of_toNat_eq e)
      split
      · exact ⟨_, rfl⟩
      · rename_i hn; have := stackSlot_eq_none hn; bv_omega
  case call d =>
    simp only [execCall]; split
    · exact ⟨_, rfl⟩
    · split
      · exact ⟨_, rfl⟩
      · rename_i hn; have := stackSlot_eq_none hn; bv_omega
  case skp x => simp only [execSkp]; split <;> exact ⟨_, rfl⟩
  case sknp x => simp only [execSknp]; split <;> exact ⟨_, rfl⟩
  case drw x => simp only [execDrw]; split <;> exact ⟨_, rfl⟩
  case ldVxK x => simp only [execLdVxK]; split <;> exact ⟨_, rfl⟩
  case ldB x => simp only [execLdB]; split <;> exact ⟨_, rfl⟩
  case storeRegs x => simp only [execStoreRegs]; split <;> exact ⟨_, rfl⟩
  case loadRegs x => simp only [execLoadRegs]; split <;> exact ⟨_, rfl⟩
  all_goals exact ⟨_, rfl⟩

end Sys2Proof.Machine
end

