-- ==== Sys2Proof/Laws/Display.lean ====
section
/-!
SUPPORT. What R231's pixel loops do to each cell and to the collision, and that a framebuffer is its
cells.
-/

namespace Sys2Proof.Machine

/-- Framebuffers whose visible cells agree are equal. -/
theorem FrameBuffer.ext_cell {fb fb' : FrameBuffer}
    (h : ∀ px py, px < 64 → py < 32 → FrameBuffer.cell fb px py = FrameBuffer.cell fb' px py) :
    fb = fb' := by
  apply Vector.ext; intro py hy
  apply BitVec.eq_of_getMsbD_eq; intro px hx
  simpa [FrameBuffer.cell, hy] using h px py hx hy

/-- A toggle flips its own cell and no other. -/
theorem FrameBuffer.cell_toggle (fb : FrameBuffer) (px py qx qy : Nat) (hx : px < 64) (hq : qx < 64)
    (hy : qy < 32) :
    FrameBuffer.cell (FrameBuffer.toggle fb px py) qx qy =
      (FrameBuffer.cell fb qx qy ^^ (decide (qx = px) && decide (qy = py))) := by
  unfold FrameBuffer.toggle FrameBuffer.cell
  by_cases h : py < 32
  · rw [dif_pos h, dif_pos hy, dif_pos hy, Vector.getElem_set]
    by_cases he : py = qy
    · subst he
      rw [if_pos rfl, BitVec.getMsbD_xor]
      congr 1
      rw [BitVec.getMsbD_twoPow]
      simp only [decide_true, Bool.and_true]
      by_cases hqx : qx = px
      · subst hqx; simp; omega
      · simp [hqx]; omega
    · rw [if_neg he, decide_eq_false (show ¬ qy = py from fun e => he e.symm), Bool.and_false, Bool.xor_false]
  · rw [dif_neg h, decide_eq_false (by omega : ¬ qy = py), Bool.and_false, Bool.xor_false]

/-- The first `n` bits of a sprite row drawn from column `x0` have a 1 over column `qx`. -/
def rowBit (x0 : Nat) (row : Byte) (n qx : Nat) : Bool :=
  decide (x0 ≤ qx) && decide (qx < x0 + n) && row.getLsbD (7 - (qx - x0))

theorem rowBit_succ (x0 : Nat) (row : Byte) (n qx : Nat) :
    rowBit x0 row (n + 1) qx =
      (rowBit x0 row n qx ^^ (decide (qx = x0 + n) && row.getLsbD (7 - n))) := by
  unfold rowBit
  by_cases h : qx = x0 + n
  · subst h; simp
  · have : decide (qx < x0 + (n + 1)) = decide (qx < x0 + n) := decide_eq_decide.mpr (by omega)
    rw [this, decide_eq_false h, Bool.false_and, Bool.xor_false]

/-- The inner loop over the first `n` bits: the cells it flips, and the collision it reports. -/
theorem plotBits_spec (x0 py : Nat) (row : Byte) (acc : FrameBuffer × Bool) (n : Nat) :
    (∀ qx qy, qx < 64 → qy < 32 →
      FrameBuffer.cell ((List.range n).foldl (plotBit x0 py row) acc).1 qx qy =
        (FrameBuffer.cell acc.1 qx qy ^^ (decide (qy = py) && rowBit x0 row n qx))) ∧
    (((List.range n).foldl (plotBit x0 py row) acc).2 = true ↔
      acc.2 = true ∨ ∃ qx, qx < 64 ∧ py < 32 ∧ rowBit x0 row n qx = true ∧
        FrameBuffer.cell acc.1 qx py = true) := by
  induction n with
  | zero =>
    have h0 : ∀ qx, rowBit x0 row 0 qx = false := fun qx => by simp [rowBit]
    simp [h0]
  | succ n ih =>
    obtain ⟨hc, hl⟩ := ih
    rw [List.range_succ, List.foldl_append]
    generalize hacc : (List.range n).foldl (plotBit x0 py row) acc = mid at hc hl
    simp only [List.foldl_cons, List.foldl_nil]
    unfold plotBit
    by_cases hv : (row.getLsbD (7 - n) && decide (x0 + n < 64) && decide (py < 32)) = true
    · rw [if_pos hv]
      simp only [Bool.and_eq_true, decide_eq_true_eq] at hv
      obtain ⟨⟨hb, hx⟩, hy⟩ := hv
      constructor
      · intro qx qy hqx hqy
        rw [FrameBuffer.cell_toggle _ _ _ _ _ hx hqx hqy, hc qx qy hqx hqy, rowBit_succ, hb]
        cases FrameBuffer.cell acc.1 qx qy <;> cases decide (qy = py) <;>
          cases rowBit x0 row n qx <;> cases decide (qx = x0 + n) <;> rfl
      · have hn : rowBit x0 row n (x0 + n) = false := by simp [rowBit]
        simp only [Bool.or_eq_true, hl, hc _ _ hx hy, hn, Bool.and_false, Bool.xor_false]
        constructor
        · rintro ((h | ⟨qx, h1, h2, h3, h4⟩) | h)
          · exact .inl h
          · refine .inr ⟨qx, h1, h2, ?_, h4⟩
            have : qx ≠ x0 + n := by rintro rfl; rw [hn] at h3; cases h3
            rw [rowBit_succ, h3, decide_eq_false this]; rfl
          · exact .inr ⟨x0 + n, hx, hy, by rw [rowBit_succ, hn, hb]; simp, h⟩
        · rintro (h | ⟨qx, h1, h2, h3, h4⟩)
          · exact .inl (.inl h)
          · by_cases he : qx = x0 + n
            · subst he; exact .inr h4
            · rw [rowBit_succ, decide_eq_false he, Bool.false_and, Bool.xor_false] at h3
              exact .inl (.inr ⟨qx, h1, h2, h3, h4⟩)
    · rw [if_neg hv]
      have key : ∀ qx, qx < 64 → py < 32 → rowBit x0 row (n + 1) qx = rowBit x0 row n qx := by
        intro qx hqx hpy
        rw [rowBit_succ]
        by_cases he : qx = x0 + n
        · have hf : row.getLsbD (7 - n) = false := by
            by_contra hne
            refine hv ?_
            simp only [Bool.not_eq_false] at hne
            simp only [hne, Bool.and_eq_true, decide_eq_true_eq, true_and]; omega
          rw [hf, Bool.and_false, Bool.xor_false]
        · rw [decide_eq_false he, Bool.false_and, Bool.xor_false]
      constructor
      · intro qx qy hqx hqy
        rw [hc qx qy hqx hqy]
        by_cases he : qy = py
        · rw [key qx hqx (by omega)]
        · rw [decide_eq_false he, Bool.false_and, Bool.false_and]
      · rw [hl]
        refine or_congr_right (exists_congr fun qx => ?_)
        constructor
        · rintro ⟨h1, h2, h3, h4⟩; exact ⟨h1, h2, by rw [key qx h1 h2]; exact h3, h4⟩
        · rintro ⟨h1, h2, h3, h4⟩; exact ⟨h1, h2, by rw [← key qx h1 h2]; exact h3, h4⟩

/-- A sprite drawn from column `x0` and row `y0` has a 1 over the cell of column `qx` and row `qy`. -/
def spriteBit (x0 : Nat) : Nat → List Byte → Nat → Nat → Bool
  | _, [], _, _ => false
  | y0, row :: rows, qx, qy =>
    (decide (qy = y0) && rowBit x0 row 8 qx) || spriteBit x0 (y0 + 1) rows qx qy

/-- No row above the sprite's first is covered. -/
theorem spriteBit_above (x0 y0 : Nat) (rows : List Byte) (qx qy : Nat) (h : qy < y0) :
    spriteBit x0 y0 rows qx qy = false := by
  induction rows generalizing y0 with
  | nil => rfl
  | cons row rows ih =>
    rw [spriteBit, ih (y0 + 1) (by omega), decide_eq_false (by omega : ¬ qy = y0)]; rfl

/-- The covered cells by row and bit number. -/
theorem spriteBit_iff (x0 y0 : Nat) (rows : List Byte) (qx qy : Nat) :
    spriteBit x0 y0 rows qx qy = true ↔
      ∃ r b, ∃ h : r < rows.length, b < 8 ∧ qx = x0 + b ∧ qy = y0 + r ∧
        rows[r].getLsbD (7 - b) = true := by
  induction rows generalizing y0 with
  | nil => simp [spriteBit]
  | cons row rows ih =>
    rw [spriteBit, Bool.or_eq_true, ih, Bool.and_eq_true, decide_eq_true_eq]
    constructor
    · rintro (⟨h1, h2⟩ | ⟨r, b, h, h1, h2, h3, h4⟩)
      · simp only [rowBit, Bool.and_eq_true, decide_eq_true_eq] at h2
        exact ⟨0, qx - x0, by simp, by omega, by omega, by omega, h2.2⟩
      · exact ⟨r + 1, b, by simpa using h, h1, h2, by omega, h4⟩
    · rintro ⟨r, b, h, h1, h2, h3, h4⟩
      cases r with
      | zero =>
        refine .inl ⟨by omega, ?_⟩
        subst h2
        simp only [rowBit, Bool.and_eq_true, decide_eq_true_eq]
        refine ⟨⟨by omega, by omega⟩, ?_⟩
        simpa using h4
      | succ r => exact .inr ⟨r, b, by simpa using h, h1, h2, by omega, h4⟩

/-- The outer loop: the cells it flips, and the collision it reports. -/
theorem plotRows_spec (x0 y0 : Nat) (rows : List Byte) (acc : FrameBuffer × Bool) :
    (∀ qx qy, qx < 64 → qy < 32 →
      FrameBuffer.cell (plotRows x0 y0 rows acc).1 qx qy =
        (FrameBuffer.cell acc.1 qx qy ^^ spriteBit x0 y0 rows qx qy)) ∧
    ((plotRows x0 y0 rows acc).2 = true ↔
      acc.2 = true ∨ ∃ qx qy, qx < 64 ∧ qy < 32 ∧ spriteBit x0 y0 rows qx qy = true ∧
        FrameBuffer.cell acc.1 qx qy = true) := by
  induction rows generalizing y0 acc with
  | nil => simp [plotRows, spriteBit]
  | cons row rows ih =>
    obtain ⟨hc, hl⟩ := plotBits_spec x0 y0 row acc 8
    obtain ⟨jc, jl⟩ := ih (y0 + 1) (plotRow x0 y0 row acc)
    have habove := spriteBit_above x0 (y0 + 1) rows
    constructor
    · intro qx qy hx hy
      rw [plotRows, jc qx qy hx hy, plotRow, hc qx qy hx hy, spriteBit, Bool.xor_assoc]
      congr 1
      by_cases he : qy = y0
      · rw [habove qx qy (by omega), Bool.xor_false, Bool.or_false]
      · rw [decide_eq_false he, Bool.false_and, Bool.false_xor, Bool.false_or]
    · rw [plotRows, jl]
      constructor
      · rintro (h | ⟨qx, qy, h1, h2, h3, h4⟩)
        · rcases hl.mp h with h | ⟨qx, h1, h2, h3, h4⟩
          · exact .inl h
          · exact .inr ⟨qx, y0, h1, h2, by rw [spriteBit, h3]; simp, h4⟩
        · refine .inr ⟨qx, qy, h1, h2, by rw [spriteBit, h3, Bool.or_true], ?_⟩
          have hne : ¬ qy = y0 := by
            intro he
            rw [habove qx qy (by omega)] at h3; cases h3
          rw [plotRow, hc qx qy h1 h2, decide_eq_false hne, Bool.false_and, Bool.xor_false] at h4
          exact h4
      · rintro (h | ⟨qx, qy, h1, h2, h3, h4⟩)
        · exact .inl (hl.mpr (.inl h))
        · by_cases he : qy = y0
          · subst he
            rw [spriteBit, habove qx qy (by omega), Bool.or_false] at h3
            simp only [decide_true, Bool.true_and] at h3
            exact .inl (hl.mpr (.inr ⟨qx, h1, h2, h3, h4⟩))
          · rw [spriteBit, decide_eq_false he, Bool.false_and, Bool.false_or] at h3
            refine .inr ⟨qx, qy, h1, h2, h3, ?_⟩
            rw [plotRow, hc qx qy h1 h2, decide_eq_false he, Bool.false_and, Bool.xor_false]
            exact h4

end Sys2Proof.Machine
end

