-- ==== Sys2Proof/Tests/Slice0.lean ====
section
/-!
SUPPORT. The model's own tests: ill-formed terms refused, words decoded, one step of each instruction,
and a witness for the hypotheses of each statement. The words and the expected results are those of
spec/95_test_vectors.md (the vector is named in each docstring) or read off the rule named.
-/

open Sys2Proof Sys2Proof.Machine Sys2Proof.Certificates

namespace Sys2Proof.Tests

/-! ### Small states -/

/-- The state after one step of the word `w` placed at PC. -/
def after (w : Nat) (s : State) : Option State :=
  match step (s.withFetchWord 16 w) with
  | .next t => some t
  | .fault _ => none
  | .refused _ => none

/-- The state an outcome goes to. -/
def goesTo (r : Result) : Option State :=
  match r with
  | .next t => some t
  | .fault _ => none
  | .refused _ => none

/-- Reset with some registers set. -/
def regs (l : List (Reg × Byte)) : State := l.foldl (fun s p => s.setV p.1 p.2) State.reset

/-- The same with I set, and bytes stored at an address. -/
def mems (l : List (Reg × Byte)) (i : Word) (a : Nat) (ws : List Byte) : State :=
  { (regs l).storeBytes a ws with ireg := i }

/-- Reset with one cell on. -/
def lit (px py : Nat) : FrameBuffer := FrameBuffer.toggle State.reset.fb px py

/-- Reset with PC and some keys pressed. -/
def pressed (ks : List (Fin 16)) : State := ks.foldl (fun s k => s.setKey k true) State.reset

/-- A core halted by a RET with an empty stack at 0x200. -/
def haltedState : State :=
  { State.reset.withFetchWord 16 0x00EE with fault := some ⟨.stackUnderflow, some 0x00EE#16, 0x200#16⟩ }

/-! ### Well-formedness: an ill-formed term for each check -/

/-- R98: 01E0, 0AEE, 5121 and 9125 have no row under STRICT. -/
theorem test_illformed_refused_under_strict :
    (Instr.cls 1).wellFormed .strict = false ∧ (Instr.ret 0xA).wellFormed .strict = false ∧
    (Instr.seReg 1 2 1).wellFormed .strict = false ∧ (Instr.sneReg 1 2 5).wellFormed .strict = false := by
  decide

/-- R98: LOOSE leaves those digits free. -/
theorem test_free_digits_wellformed_under_loose :
    (Instr.cls 1).wellFormed .loose = true ∧ (Instr.ret 0xA).wellFormed .loose = true ∧
    (Instr.seReg 1 2 1).wellFormed .loose = true ∧ (Instr.sneReg 1 2 5).wellFormed .loose = true := by
  decide

/-- R93: all 16 registers are legal under STRICT too. -/
theorem test_wellformed_under_strict :
    (Instr.cls 0).wellFormed .strict = true ∧ (Instr.drw 0xF 0xF 0xF).wellFormed .strict = true := by
  decide

/-! ### Decoding: words of R95, under either value of P_DECODE -/

/-- Control transfer and skips (R140 to R147). -/
theorem test_decode_flow :
    Reads 0x00EE#16 (.ret 0) ∧ Reads 0x12A0#16 (.jp 0x2A0) ∧ Reads 0x2300#16 (.call 0x300) ∧
    Reads 0x3342#16 (.seImm 3 0x42) ∧ Reads 0x4342#16 (.sneImm 3 0x42) ∧
    Reads 0x5120#16 (.seReg 1 2 0) ∧ Reads 0x9120#16 (.sneReg 1 2 0) ∧
    Reads 0xB300#16 (.jpV0 0x300) := by
  refine ⟨?_, ?_, ?_, ?_, ?_, ?_, ?_, ?_⟩ <;> exact fun m => rfl

/-- Loads, arithmetic, logic, shifts, random (R171 to R182). -/
theorem test_decode_alu :
    Reads 0x6A05#16 (.ldImm 0xA 0x05) ∧ Reads 0x7103#16 (.addImm 1 0x03) ∧
    Reads 0x8520#16 (.ldReg 5 2) ∧ Reads 0x8121#16 (.orReg 1 2) ∧ Reads 0x8122#16 (.andReg 1 2) ∧
    Reads 0x8123#16 (.xorReg 1 2) ∧ Reads 0x8014#16 (.addReg 0 1) ∧ Reads 0x8015#16 (.sub 0 1) ∧
    Reads 0x8356#16 (.shr 3 5) ∧ Reads 0x8127#16 (.subn 1 2) ∧ Reads 0x830E#16 (.shl 3 0) ∧
    Reads 0xC00F#16 (.rnd 0 0x0F) := by
  refine ⟨?_, ?_, ?_, ?_, ?_, ?_, ?_, ?_, ?_, ?_, ?_, ?_⟩ <;> exact fun m => rfl

/-- Index register and memory transfers (R200 to R205). -/
theorem test_decode_memory :
    Reads 0xA300#16 (.ldI 0x300) ∧ Reads 0xF21E#16 (.addI 2) ∧ Reads 0xF429#16 (.ldF 4) ∧
    Reads 0xF033#16 (.ldB 0) ∧ Reads 0xF255#16 (.storeRegs 2) ∧ Reads 0xF265#16 (.loadRegs 2) := by
  refine ⟨?_, ?_, ?_, ?_, ?_, ?_⟩ <;> exact fun m => rfl

/-- Display (R230, R231). -/
theorem test_decode_display : Reads 0x00E0#16 (.cls 0) ∧ Reads 0xD015#16 (.drw 0 1 5) := by
  refine ⟨?_, ?_⟩ <;> exact fun m => rfl

/-- Keypad and timers (R250 to R255). -/
theorem test_decode_keys_timers :
    Reads 0xE59E#16 (.skp 5) ∧ Reads 0xE5A1#16 (.sknp 5) ∧ Reads 0xF207#16 (.ldVxDt 2) ∧
    Reads 0xF40A#16 (.ldVxK 4) ∧ Reads 0xF115#16 (.ldDtVx 1) ∧ Reads 0xF118#16 (.ldStVx 1) := by
  refine ⟨?_, ?_, ?_, ?_, ?_, ?_⟩ <;> exact fun m => rfl

/-- V-DEC-01, 02, 05, 06, 07: words of R97 that match no row under either value. -/
theorem test_decode_unmatched :
    ([0x0000, 0x0123, 0x800F, 0x8018, 0x801D, 0xE000, 0xE09F, 0xF000, 0xF0FF, 0xFFFF] : List Word).all
      (fun w => decodeWith .strict w == none && decodeWith .loose w == none) = true := by decide

/-- V-DEC-03, 04, 08, 09: the words on which STRICT and LOOSE differ. -/
theorem test_decode_modes_differ :
    decodeWith .strict 0x01E0 = none ∧ decodeWith .loose 0x01E0 = some (.cls 1) ∧
    decodeWith .strict 0x0AEE = none ∧ decodeWith .loose 0x0AEE = some (.ret 0xA) ∧
    decodeWith .strict 0x5121 = none ∧ decodeWith .loose 0x5121 = some (.seReg 1 2 1) ∧
    decodeWith .strict 0x9125 = none ∧ decodeWith .loose 0x9125 = some (.sneReg 1 2 5) := by decide

/-- R65, R100: bytes in memory order, two at a time. -/
theorem test_decode_bytes :
    decodeBytesWith .strict [0x6A, 0x05, 0x12] = .instr (.ldImm 0xA 0x05) [0x12] ∧
    decodeBytesWith .strict [0x00, 0x00] = .unmatched 0x0000 [] ∧
    decodeBytesWith .strict [0x6A] = .truncated := by decide

/-! ### Control transfer and skips -/

/-- V-FLOW-01. -/
theorem test_ret :
    (after 0x00EE { State.reset with pc := 0x310, sp := 1, stack := State.reset.stack.set 0 0x0206 }).map
      (fun t => (t.sp, t.pc, t.stack[0])) = some (0, 0x0206, 0x0206) := by decide

/-- V-FLOW-02. -/
theorem test_ret_underflow :
    (after 0x00EE State.reset).map (fun t => (t.fault, t.pc, t.sp)) =
      some (some ⟨.stackUnderflow, some 0x00EE, 0x200⟩, 0x200, 0) := by decide

/-- V-FLOW-04, V-FLOW-05: the largest target and an odd one. -/
theorem test_jp :
    (after 0x1FFF State.reset).map (·.pc) = some 0x0FFF ∧
    (after 0x1201 State.reset).map (·.pc) = some 0x0201 := by decide

/-- V-FLOW-09: the pushed address may be 0x1000. -/
theorem test_call :
    (after 0x2300 { State.reset with pc := 0xFFE }).map (fun t => (t.stack[0], t.sp, t.pc)) =
      some (0x1000, 1, 0x0300) := by decide

/-- V-FLOW-07, V-FLOW-08. -/
theorem test_call_sixteenth_and_seventeenth :
    (after 0x2300 { State.reset with sp := 15 }).map (fun t => (t.stack[15], t.sp, t.pc)) =
      some (0x0202, 16, 0x0300) ∧
    (after 0x2300 { State.reset with sp := 16 }).map (fun t => (t.fault, t.pc, t.sp)) =
      some (some ⟨.stackOverflow, some 0x2300, 0x200⟩, 0x200, 16) := by decide

/-- V-FLOW-10, V-FLOW-11. -/
theorem test_seImm :
    (after 0x3342 { regs [(3, 0x42)] with pc := 0x300 }).map (·.pc) = some 0x304 ∧
    (after 0x3342 { regs [(3, 0x41)] with pc := 0x300 }).map (·.pc) = some 0x302 := by decide

/-- V-FLOW-12, V-FLOW-13. -/
theorem test_sneImm :
    (after 0x4342 { regs [(3, 0x41)] with pc := 0x300 }).map (·.pc) = some 0x304 ∧
    (after 0x4342 { regs [(3, 0x42)] with pc := 0x300 }).map (·.pc) = some 0x302 := by decide

/-- V-FLOW-16, V-FLOW-17. -/
theorem test_seReg :
    (after 0x5120 (regs [(1, 0x10), (2, 0x10)])).map (·.pc) = some 0x204 ∧
    (after 0x5120 (regs [(1, 0x10), (2, 0x11)])).map (·.pc) = some 0x202 := by decide

/-- V-FLOW-19, V-FLOW-20. -/
theorem test_sneReg :
    (after 0x9120 (regs [(1, 0x10), (2, 0x11)])).map (·.pc) = some 0x204 ∧
    (after 0x9120 (regs [(1, 0x10), (2, 0x10)])).map (·.pc) = some 0x202 := by decide

/-- V-FLOW-24, V-FLOW-25: the largest PC, and V3 not read. -/
theorem test_jpV0 :
    (after 0xBFFF (regs [(0, 0xFF)])).map (·.pc) = some 0x10FE ∧
    (after 0xB300 (regs [(0, 0x01), (3, 0x80)])).map (·.pc) = some 0x0301 := by decide

/-! ### Loads, arithmetic, logic, shifts, random -/

/-- V-ALU-02. -/
theorem test_ldImm : (after 0x6FFF State.reset).map (fun t => (t.getV 0xF, t.pc)) =
    some (0xFF, 0x202) := by decide

/-- V-ALU-03, V-ALU-04: the sum wraps and no flag is written. -/
theorem test_addImm :
    (after 0x7103 (regs [(1, 0xFE), (0xF, 0x07)])).map (fun t => (t.getV 1, t.getV 0xF)) =
      some (0x01, 0x07) ∧
    (after 0x7F01 (regs [(0xF, 0xFF)])).map (·.getV 0xF) = some 0x00 := by decide

/-- V-ALU-05. -/
theorem test_ldReg : (after 0x8520 (regs [(2, 0x7C)])).map (·.getV 5) = some 0x7C := by decide

/-- V-ALU-13: VF is not reset. -/
theorem test_or : (after 0x8121 (regs [(1, 0xF0), (2, 0x0F), (0xF, 0x05)])).map
    (fun t => (t.getV 1, t.getV 0xF)) = some (0xFF, 0x05) := by decide

/-- V-ALU-14. -/
theorem test_and : (after 0x8122 (regs [(1, 0xF3), (2, 0x3C)])).map (·.getV 1) = some 0x30 := by decide

/-- V-ALU-15. -/
theorem test_xor : (after 0x8123 (regs [(1, 0xF3), (2, 0x3C)])).map (·.getV 1) = some 0xCF := by decide

/-- V-ALU-08: the source is the destination; the carry is of the values before. -/
theorem test_addReg_same : (after 0x8334 (regs [(3, 0x80)])).map (fun t => (t.getV 3, t.getV 0xF)) =
    some (0x00, 0x01) := by decide

/-- V-ALU-11, V-ALU-12: VF is an operand. -/
theorem test_addReg_vf :
    (after 0x8F14 (regs [(0xF, 0x10), (1, 0xF5)])).map (·.getV 0xF) = some 0x01 ∧
    (after 0x81F4 (regs [(1, 0xF0), (0xF, 0x20)])).map (fun t => (t.getV 1, t.getV 0xF)) =
      some (0x10, 0x01) := by decide

/-- V-ALU-17, V-ALU-18. -/
theorem test_sub :
    (after 0x8015 (regs [(0, 0x01), (1, 0x02)])).map (fun t => (t.getV 0, t.getV 0xF)) =
      some (0xFF, 0x00) ∧
    (after 0x8015 (regs [(0, 0x05), (1, 0x05)])).map (fun t => (t.getV 0, t.getV 0xF)) =
      some (0x00, 0x01) := by decide

/-- V-ALU-31, V-ALU-32: VF is an operand, both values of P_ALU_READ. -/
theorem test_sub_vf :
    (goesTo (execSubWith .latched 0xF 1 (regs [(0xF, 0x10), (1, 0x03)]))).map (·.getV 0xF) = some 0x0D ∧
    (goesTo (execSubWith .sequential 0xF 1 (regs [(0xF, 0x10), (1, 0x03)]))).map (·.getV 0xF) =
      some 0xFE ∧
    (goesTo (execSubWith .latched 1 0xF (regs [(1, 0x10), (0xF, 0x03)]))).map
      (fun t => (t.getV 1, t.getV 0xF)) = some (0x0D, 0x01) ∧
    (goesTo (execSubWith .sequential 1 0xF (regs [(1, 0x10), (0xF, 0x03)]))).map
      (fun t => (t.getV 1, t.getV 0xF)) = some (0x0F, 0x01) := by decide

/-- V-ALU-22: Vy is ignored. -/
theorem test_shr : (after 0x8356 (regs [(3, 0x80), (5, 0xFF)])).map (fun t => (t.getV 3, t.getV 0xF)) =
    some (0x40, 0x00) := by decide

/-- V-ALU-34. -/
theorem test_shr_vf :
    (goesTo (execShrWith .latched 0xF (regs [(0xF, 0x05)]))).map (·.getV 0xF) = some 0x02 ∧
    (goesTo (execShrWith .sequential 0xF (regs [(0xF, 0x05)]))).map (·.getV 0xF) = some 0x00 := by decide

/-- V-ALU-23, V-ALU-24. -/
theorem test_subn :
    (after 0x8127 (regs [(1, 0x05), (2, 0x03)])).map (fun t => (t.getV 1, t.getV 0xF)) =
      some (0xFE, 0x00) ∧
    (after 0x8127 (regs [(1, 0x03), (2, 0x05)])).map (fun t => (t.getV 1, t.getV 0xF)) =
      some (0x02, 0x01) := by decide

/-- V-ALU-35, V-ALU-36. -/
theorem test_subn_vf :
    (goesTo (execSubnWith .latched 0xF 1 (regs [(0xF, 0x03), (1, 0x10)]))).map (·.getV 0xF) = some 0x0D ∧
    (goesTo (execSubnWith .sequential 0xF 1 (regs [(0xF, 0x03), (1, 0x10)]))).map (·.getV 0xF) =
      some 0x0F ∧
    (goesTo (execSubnWith .latched 1 0xF (regs [(1, 0x03), (0xF, 0x10)]))).map (·.getV 1) = some 0x0D ∧
    (goesTo (execSubnWith .sequential 1 0xF (regs [(1, 0x03), (0xF, 0x10)]))).map (·.getV 1) =
      some 0xFE := by decide

/-- V-ALU-25. -/
theorem test_shl : (after 0x830E (regs [(3, 0x81)])).map (fun t => (t.getV 3, t.getV 0xF)) =
    some (0x02, 0x01) := by decide

/-- V-ALU-38. -/
theorem test_shl_vf :
    (goesTo (execShlWith .latched 0xF (regs [(0xF, 0x41)]))).map (·.getV 0xF) = some 0x82 ∧
    (goesTo (execShlWith .sequential 0xF (regs [(0xF, 0x41)]))).map (·.getV 0xF) = some 0x00 := by decide

/-- V-ALU-29: a mask of 0 gives 0 whatever is drawn, and the draw is consumed. -/
theorem test_rnd : ∃ t, step ((regs [(0, 0x55)]).withFetchWord 16 0xC000) = .next t ∧
    t.getV 0 = 0x00 ∧ t.draws = 1 := by
  refine ⟨_, rfl, ?_, rfl⟩
  exact BitVec.and_zero

/-! ### Index register and memory transfers -/

/-- V-MEM-01. -/
theorem test_ldI : (after 0xA300 State.reset).map (fun t => (t.ireg, t.pc)) =
    some (0x0300, 0x202) := by decide

/-- V-MEM-03, V-MEM-04. -/
theorem test_addI :
    (after 0xF11E { regs [(1, 0x01)] with ireg := 0xFFFF }).map (fun t => (t.ireg, t.getV 0xF)) =
      some (0x0000, 0x00) ∧
    (after 0xF11E { regs [(1, 0x01)] with ireg := 0x0FFF }).map (·.ireg) = some 0x1000 := by decide

/-- V-MEM-06, V-MEM-07. -/
theorem test_ldF :
    (after 0xF429 (regs [(4, 0x10)])).map (·.ireg) = some 0x0050 ∧
    (after 0xF429 (regs [(4, 0xFF)])).map (·.ireg) = some 0x04FB := by decide

/-- V-MEM-08, V-MEM-11. -/
theorem test_ldB :
    (after 0xF033 (mems [(0, 0xFE)] 0x300 0x300 [])).map
      (fun t => (t.byteAt 0x300, t.byteAt 0x301, t.byteAt 0x302, t.ireg)) = some (2, 5, 4, 0x300) ∧
    (after 0xF033 (mems [(0, 0x07)] 0xFFD 0x300 [])).map
      (fun t => (t.byteAt 0xFFD, t.byteAt 0xFFE, t.byteAt 0xFFF)) = some (0, 0, 7) := by decide

/-- V-MEM-12. -/
theorem test_ldB_bounds : (after 0xF033 (mems [(0, 0x07)] 0xFFE 0x300 [])).map
    (fun t => (t.fault, t.byteAt 0xFFE, t.pc)) =
      some (some ⟨.memoryOutOfBounds, some 0xF033, 0x200⟩, 0, 0x200) := by decide

/-- V-MEM-13. -/
theorem test_storeRegs : (after 0xF255 (mems [(0, 0x11), (1, 0x22), (2, 0x33), (3, 0x44)] 0x400 0x300 [])).map
    (fun t => (t.byteAt 0x400, t.byteAt 0x401, t.byteAt 0x402, t.byteAt 0x403, t.ireg)) =
      some (0x11, 0x22, 0x33, 0x00, 0x400) := by decide

/-- V-MEM-14, V-MEM-15: the top of memory. -/
theorem test_storeRegs_top :
    (after 0xFF55 (mems [(0xF, 0xEE)] 0xFF0 0x300 [])).map (fun t => (t.byteAt 0xFFE, t.byteAt 0xFFF)) =
      some (0, 0xEE) ∧
    (after 0xFF55 (mems [(0xF, 0xEE)] 0xFF1 0x300 [])).map (·.fault) =
      some (some ⟨.memoryOutOfBounds, some 0xFF55, 0x200⟩) := by decide

/-- V-MEM-17: the registers above x keep their values. -/
theorem test_loadRegs : (after 0xF265 (mems [(3, 0x77)] 0x300 0x300 [2, 5, 4, 9])).map
    (fun t => (t.getV 0, t.getV 1, t.getV 2, t.getV 3, t.ireg)) = some (2, 5, 4, 0x77, 0x300) := by decide

/-- V-MEM-16, V-MEM-19: the top of memory. -/
theorem test_loadRegs_top :
    (after 0xF065 (mems [] 0xFFF 0xFFF [9])).map (·.getV 0) = some 9 ∧
    (after 0xF165 (mems [] 0xFFF 0xFFF [9])).map (fun t => (t.fault, t.getV 0)) =
      some (some ⟨.memoryOutOfBounds, some 0xF165, 0x200⟩, 0) := by decide

/-! ### Display -/

/-- V-DRW-01, on a screen with its first and last cells on. -/
theorem test_cls : (after 0x00E0 { State.reset with fb := FrameBuffer.toggle (lit 0 0) 63 31 }).map
    (fun t => (FrameBuffer.flat t.fb 0, FrameBuffer.flat t.fb 2047, t.pc)) =
      some (false, false, 0x202) := by decide

/-- V-DRW-05: clipped at the right edge, not wrapped. -/
theorem test_drw_clips : (after 0xD011 (mems [(0, 0x3E)] 0x300 0x300 [0xFF])).map
    (fun t => (FrameBuffer.flat t.fb 61, FrameBuffer.flat t.fb 62, FrameBuffer.flat t.fb 63,
      FrameBuffer.flat t.fb 64, FrameBuffer.flat t.fb 0, t.getV 0xF)) =
      some (false, true, true, false, false, 0) := by decide

/-- V-DRW-07, V-DRW-11: a collision, and a sprite past the top of memory. -/
theorem test_drw_collides_and_bounds :
    (after 0xD011 { mems [(0, 5), (1, 2)] 0x300 0x300 [0x80] with fb := lit 5 2 }).map
      (fun t => (FrameBuffer.flat t.fb 133, t.getV 0xF)) = some (false, 1) ∧
    (after 0xD012 (mems [] 0xFFF 0x300 [])).map (fun t => (t.fault, t.getV 0xF)) =
      some (some ⟨.memoryOutOfBounds, some 0xD012, 0x200⟩, 0) := by decide

/-! ### Keypad and timers -/

/-- V-KEY-01, V-KEY-05. -/
theorem test_skp :
    (after 0xE59E ((pressed [7]).setV 5 7)).map (fun t => (t.pc, t.getKey 7)) = some (0x204, true) ∧
    (after 0xE59E ((pressed [7]).setV 5 0x10)).map (fun t => (t.fault, t.pc)) =
      some (some ⟨.invalidKeyIndex, some 0xE59E, 0x200⟩, 0x200) := by decide

/-- V-KEY-03, V-KEY-04. -/
theorem test_sknp :
    (after 0xE5A1 ((pressed []).setV 5 7)).map (·.pc) = some 0x204 ∧
    (after 0xE5A1 ((pressed [7]).setV 5 7)).map (·.pc) = some 0x202 := by decide

/-- V-KEY-08. -/
theorem test_ldVxDt : (after 0xF207 { State.reset with dt := 0x3C }).map (fun t => (t.getV 2, t.dt)) =
    some (0x3C, 0x3C) := by decide

/-- V-KEY-09. -/
theorem test_ldVxK : (after 0xF40A (pressed [9, 3])).map
    (fun t => (t.getV 4, t.getKey 3, t.getKey 9, t.pc)) = some (3, false, true, 0x202) := by decide

/-- V-KEY-10. -/
theorem test_ldVxK_waits : (after 0xF40A ((pressed []).setV 4 0x55)).map (fun t => (t.getV 4, t.pc)) =
    some (0x55, 0x200) := by decide

/-- V-KEY-12. -/
theorem test_ldDtVx : (after 0xF115 (regs [(1, 0x3C)])).map (fun t => (t.dt, t.st)) =
    some (0x3C, 0) := by decide

/-- V-KEY-13. -/
theorem test_ldStVx : (after 0xF118 (regs [(1, 0x05)])).map (fun t => (t.st, t.dt, readSound t)) =
    some (5, 0, true) := by decide

/-! ### The step and the transactions -/

/-- V-STEP-02. -/
theorem test_fetch_past_top : goesTo (step { State.reset with pc := 0x1000 }) =
    some { State.reset with pc := 0x1000, fault := some ⟨.memoryOutOfBounds, none, 0x1000⟩ } := by decide

/-- V-STEP-04: an odd fetch. -/
theorem test_fetch_odd : (after 0x6A07 { State.reset with pc := 0x201 }).map
    (fun t => (t.getV 0xA, t.pc)) = some (7, 0x203) := by decide

/-- V-STEP-05, V-STEP-06: a halted core. -/
theorem test_halted :
    goesTo (step { haltedState with dt := 5 }) = some { haltedState with dt := 5 } ∧
    tick { haltedState with dt := 5 } = { haltedState with dt := 5 } ∧
    (keyDown 2 haltedState).getKey 2 = true := by decide

/-- V-TICK-03. -/
theorem test_ticks : (fun t : State => (t.dt, t.st)) (ticks 5 { State.reset with dt := 2, st := 255 }) =
    (0, 250) := by decide

/-- V-RST-04. -/
theorem test_load : (fun t : State => (t.byteAt 0x200, t.byteAt 0x201, t.byteAt 0x202, t.byteAt 0x203))
    (loadRom [0x12, 0x00, 0xAB] State.reset).2 = (0x12, 0x00, 0xAB, 0x00) := by decide

/-- V-RST-01 (log 11). -/
theorem test_reset_transaction : resetCore { haltedState with dt := 5, sp := 3 } = State.reset := by decide

/-! ### Witnesses: for each statement with hypotheses, a state and operands that meet them, one for
each clause, at the boundary of its range -/

/-- The invariant at reset, for the witnesses below. -/
theorem reset_inv : Inv State.reset :=
  ⟨reset_mem_wf, by decide, by decide, by decide, trivial⟩

/-- The halted core meets the invariant too. -/
theorem halted_inv : Session.Inv ⟨.started, haltedState⟩ :=
  ⟨⟨by decide, by decide, by decide, by decide, by decide, by decide, fun h => by cases h⟩,
    fun h => by cases h⟩

theorem witness_DecodeOfEncode :
    (Instr.seReg 1 2 0).wellFormed .strict = true ∧ (Instr.seReg 1 2 0xF).wellFormed .loose = true := by
  decide

theorem witness_EncodeOfDecode :
    decodeWith .strict 0x9120 = some (.sneReg 1 2 0) ∧ decodeWith .loose 0x912F = some (.sneReg 1 2 0xF) := by
  decide

theorem witness_DecodeFollowsOpcodeMap :
    (⟨0xF0FF#16, 0xF065#16⟩ : OpcodeRow) ∈ opcodeMap ∧
    (⟨0xF0FF#16, 0xF065#16⟩ : OpcodeRow).covers 0xFF65 = true ∧
    ∀ r ∈ opcodeMap, r.covers 0x0000 = false := by decide

theorem witness_StepRunsDecodedInstruction :
    let s := ({ State.reset with pc := 0xFFE } : State).withFetchWord 16 0x602A
    s.fault = none ∧ s.pc.toNat ≤ 0xFFE ∧
      decode (s.byteAt s.pc.toNat ++ s.byteAt (s.pc.toNat + 1)) = some (.ldImm 0 0x2A) := by decide

theorem witness_PlacedWordRuns :
    ({ State.reset with pc := 0xFFE } : State).pc.toNat ≤ 0xFFE ∧
    (Instr.cls 0).wellFormed decodeMode = true := by decide

theorem witness_UnmatchedWordAdvances :
    State.reset.fault = none ∧ State.reset.pc.toNat ≤ 0xFFE ∧
    decode (State.reset.byteAt State.reset.pc.toNat ++
      State.reset.byteAt (State.reset.pc.toNat + 1)) = none := by decide

theorem witness_FetchPastTopFaults :
    ({ State.reset with pc := 0xFFF } : State).fault = none ∧
    0xFFE < ({ State.reset with pc := 0xFFF } : State).pc.toNat := by decide

theorem witness_FaultsArePrecise :
    ∃ t, (State.reset.withFetchWord 16 0x00EE).fault = none ∧
      step (State.reset.withFetchWord 16 0x00EE) = .next t ∧ t.fault ≠ none :=
  ⟨_, rfl, rfl, by decide⟩

theorem witness_FaultConditionsExact :
    (∃ t, State.reset.fault = none ∧ exec (.ret 0) State.reset = .next t ∧
      faultCondition (.ret 0) State.reset = some .stackUnderflow) ∧
    (∃ t, State.reset.fault = none ∧ exec (.drw 0 0 0) State.reset = .next t ∧
      faultCondition (.drw 0 0 0) State.reset = none) :=
  ⟨⟨_, rfl, rfl, rfl⟩, ⟨_, rfl, rfl, rfl⟩⟩

theorem witness_HaltedCoreIsStill :
    ∃ resp z', Session.Inv ⟨.started, haltedState⟩ ∧ haltedState.fault ≠ none ∧
      Transaction.tick ≠ .reset ∧ Session.apply ⟨.started, haltedState⟩ .tick = .next (resp, z') :=
  ⟨_, _, halted_inv, by decide, by decide, rfl⟩

theorem witness_HaltedCoreIsStill_unkeyed :
    haltedState.fault ≠ none ∧ ∀ k, Transaction.step ≠ .keyDown k ∧ Transaction.step ≠ .keyUp k :=
  ⟨by decide, fun _ => ⟨by simp, by simp⟩⟩

theorem witness_StepKeepsInv : ∃ t, Inv State.reset ∧ step State.reset = .next t :=
  ⟨_, reset_inv, rfl⟩

theorem witness_TransactionsKeepInv :
    ∃ resp z', Session.start.Inv ∧ Session.start.apply (.load [0x12, 0x00]) = .next (resp, z') :=
  ⟨_, _, ⟨reset_inv, fun _ => rfl⟩, rfl⟩

theorem witness_StepNeverStops : Inv { State.reset with sp := 16, pc := 0x10FE } :=
  ⟨reset_mem_wf, by decide, by decide, by decide, trivial⟩

/-- An instruction that completes, and bytes on both sides of the ones it stores. -/
theorem witness_InstructionFrames :
    ∃ t, exec (.ldB 0) { State.reset with ireg := 0xFFD } = .next t ∧ ¬ writesReg (.ldB 0) 0 ∧
      0xFFC < (0xFFD : Nat) ∧ storedCount (.ldB 0) = 3 :=
  ⟨_, rfl, id, by decide, rfl⟩

theorem witness_VfWrittenOnlyByItsWriters :
    ∃ t, exec (.ldImm vF 1) State.reset = .next t ∧ t.getV vF ≠ State.reset.getV vF :=
  ⟨_, rfl, by decide⟩

theorem witness_NoInstructionReadsSoundTimer :
    ∃ t, step (State.reset.withFetchWord 16 0xF007) = .next t := ⟨_, rfl⟩

theorem witness_DeadStackEntriesUnread :
    ∃ t, ({ State.reset with sp := 1 } : State).sp.toNat ≤ (1 : Fin 16).val ∧
      step (({ State.reset with sp := 1 } : State).withFetchWord 16 0x00EE) = .next t :=
  ⟨_, by decide, rfl⟩

theorem witness_RetPops :
    ({ State.reset with sp := 1 } : State).sp.toNat = (0 : Fin 16).val + 1 ∧
    ({ State.reset with sp := 16 } : State).sp.toNat = (15 : Fin 16).val + 1 ∧
    State.reset.sp = 0#8 := by decide

theorem witness_CallPushes :
    State.reset.sp.toNat = (0 : Fin 16).val ∧
    ({ State.reset with sp := 15 } : State).sp.toNat = (15 : Fin 16).val ∧
    ({ State.reset with sp := 16 } : State).sp = 16#8 := by decide

theorem witness_CallThenRetReturns :
    ∃ t, ({ State.reset with sp := 15 } : State).sp.toNat < 16 ∧
      exec (.call 0x300) { State.reset with sp := 15 } = .next t ∧
      ({ t with pc := 0x310 } : State).sp = t.sp ∧ ({ t with pc := 0x310 } : State).stack = t.stack :=
  ⟨_, by decide, rfl, rfl, rfl⟩

theorem witness_RegisterSkips : (1 : Nibble) ≠ 0#4 := by decide

/-- x and y both other than VF: the clauses of `PlainRegisterWrites`, `BitwiseLogic`,
`AddWritesSumThenCarry`, `SubtractsWithNotBorrow`, `ShiftsByOne`, `AluReadTable` and
`DoubleDrawRestores`. -/
theorem witness_operands_not_VF : (0 : Reg) ≠ vF ∧ (0xE : Reg) ≠ vF := by decide

theorem witness_BcdStored :
    ({ State.reset with ireg := 0xFFD } : State).ireg.toNat + 2 < 4096 ∧
    4096 ≤ ({ State.reset with ireg := 0xFFE } : State).ireg.toNat + 2 := by decide

theorem witness_RegistersStored :
    ({ State.reset with ireg := 0xFF0 } : State).ireg.toNat + (0xF : Reg).toNat < 4096 ∧
    4096 ≤ ({ State.reset with ireg := 0xFF1 } : State).ireg.toNat + (0xF : Reg).toNat := by decide

theorem witness_RegistersLoaded :
    ({ State.reset with ireg := 0xFFF } : State).ireg.toNat + (0 : Reg).toNat < 4096 ∧
    4096 ≤ ({ State.reset with ireg := 0xFFF } : State).ireg.toNat + (1 : Reg).toNat := by decide

theorem witness_StoreThenLoadReadsBack :
    ({ State.reset with ireg := 0xFF0 } : State).ireg.toNat + (0xF : Reg).toNat < 4096 ∧
    (0xF : Reg).toNat ≤ (0xF : Reg).toNat := by decide

theorem witness_FetchSeesStores :
    1 ≤ (1 : Reg).toNat ∧
    ({ State.reset with ireg := 0xFFE } : State).ireg.toNat + (1 : Reg).toNat < 4096 := by decide

/-- The bounds at n = 0 with I past the top, at the last byte, and one past it. -/
theorem witness_SpriteDrawn_bounds :
    ((0 : Nibble) = 0#4 ∨ ({ State.reset with ireg := 0x1000 } : State).ireg.toNat + 0 - 1 < 4096) ∧
    ({ State.reset with ireg := 0xFFF } : State).ireg.toNat + (1 : Nibble).toNat - 1 < 4096 ∧
    (2 : Nibble) ≠ 0#4 ∧
    4096 ≤ ({ State.reset with ireg := 0xFFF } : State).ireg.toNat + (2 : Nibble).toNat - 1 := by decide

/-- V-DRW-04: the cell under the sprite, and one that is not. -/
theorem witness_SpriteDrawn_cells :
    spriteOver 0 1 1 (mems [(0, 0x41), (1, 0x22)] 0x300 0x300 [0x80]) 1 2 ∧
    ¬ spriteOver 0 1 1 (mems [(0, 0x41), (1, 0x22)] 0x300 0x300 [0x80]) 0 2 := by
  have hx : ((mems [(0, 0x41), (1, 0x22)] 0x300 0x300 [0x80]).getV 0).toNat % 64 = 1 := by decide
  refine ⟨⟨0, 0, by decide, by decide, by decide, by decide, by decide⟩, ?_⟩
  rintro ⟨r, b, -, -, h, -⟩
  omega

/-- V-SRC-06: a sprite over a cell that is on and cells that are off. -/
theorem witness_DoubleDrawRestores :
    (0 : Reg) ≠ vF ∧ (1 : Reg) ≠ vF ∧
    (mems [] 0x300 0x300 [0xF0]).ireg.toNat + (1 : Nibble).toNat - 1 < 4096 ∧
    spriteOver 0 1 1 (mems [] 0x300 0x300 [0xF0]) 3 0 :=
  ⟨by decide, by decide, by decide, 0, 3, by decide, by decide, by decide, by decide, by decide⟩

theorem witness_KeySkips :
    ((regs [(5, 0x0F)]).getV 5).toNat = (15 : Fin 16).val ∧
    16 ≤ ((regs [(5, 0x10)]).getV 5).toNat := by decide

theorem witness_KeyWaitTakesLowest :
    ((pressed [3, 9]).getKey 3 = true ∧ ∀ j : Fin 16, j < 3 → (pressed [3, 9]).getKey j = false) ∧
    ((pressed [15]).getKey 15 = true ∧ ∀ j : Fin 16, j < 15 → (pressed [15]).getKey j = false) ∧
    ∀ j : Fin 16, State.reset.getKey j = false := by decide

theorem witness_TickDecrements : State.reset.fault = none ∧ haltedState.fault ≠ none := by decide

theorem witness_TicksCountDown : ({ State.reset with dt := 2, st := 255 } : State).fault = none := rfl

theorem witness_ResetRestarts : ([] : List Byte).length ≤ 3584 := by decide

theorem witness_LoadCopiesRom :
    (List.replicate 3584 (0xAB : Byte)).length ≤ 3584 ∧
    3583 < (List.replicate 3584 (0xAB : Byte)).length ∧
    3584 < (List.replicate 3585 (0xAB : Byte)).length := by
  simp only [List.length_replicate]; decide

theorem witness_LoadStartsRun :
    Session.start.stage = .fresh ∧ (List.replicate 3584 (0xAB : Byte)).length ≤ 3584 ∧
    3584 < (List.replicate 3585 (0xAB : Byte)).length := by
  simp only [List.length_replicate]; decide

/-- A step that answers, and one that stops: RET with SP = 17 (log 10). -/
theorem witness_StepAndTickInRun :
    (∃ t, step Session.start.core = .next t) ∧
    step (({ State.reset with sp := 17 } : State).withFetchWord 16 0x00EE) =
      .fault .stackPointerOutOfRange :=
  ⟨⟨_, rfl⟩, rfl⟩

theorem witness_SecondLoadRefused :
    ∃ resp z' z'', Session.start.apply (.load [0x12, 0x00]) = .next (resp, z') ∧
      Transaction.reset ∉ [Transaction.tick, Transaction.step] ∧
      z'.run [.tick, .step] = some z'' :=
  ⟨_, _, _, rfl, by decide, rfl⟩

theorem witness_SecondLoadRefused_step :
    ∃ resp z', Session.start.apply .step = .next (resp, z') ∧
      Transaction.reset ∉ ([] : List Transaction) ∧ z'.run [] = some z' :=
  ⟨_, _, rfl, by decide, rfl⟩

/-- 0x1200 at 0x200, a jump to itself. -/
theorem witness_Idle : Idle (State.reset.withFetchWord 16 0x1200) := by decide

/-- 0xF40A at 0x200 with no key pressed. -/
theorem witness_KeyWait : KeyWait (State.reset.withFetchWord 16 0xF40A) :=
  ⟨by decide, by decide, ⟨4, by decide⟩, by decide⟩

theorem witness_WaitingStepsChangeNothing :
    Idle (State.reset.withFetchWord 16 0x1200) ∧ KeyWait (State.reset.withFetchWord 16 0xF40A) :=
  ⟨witness_Idle, witness_KeyWait⟩

/-- A Step and a Tick in turn. -/
theorem witness_IdleTimersRunOut :
    Idle { State.reset.withFetchWord 16 0x1200 with dt := 5, st := 255 } ∧
    FairSchedule (fun n => if n % 2 = 0 then .step else .tick) ∧
    ∀ n, (fun n => if n % 2 = 0 then Transaction.step else .tick) n = .step ∨
      (fun n => if n % 2 = 0 then Transaction.step else .tick) n = .tick := by
  refine ⟨by decide, fun n => ⟨⟨2 * n, by omega, ?_⟩, ⟨2 * n + 1, by omega, ?_⟩⟩, fun n => ?_⟩
  · exact if_pos (by omega)
  · exact if_neg (by omega)
  · dsimp only; split
    · exact .inl rfl
    · exact .inr rfl

end Sys2Proof.Tests
end

/-!
SUPPORT. What an instruction leaves unchanged (spec/00_scope.md R14): memory and the stack by
`exec_cases`, the registers and the remaining parts by `exec_leaves`.
-/

namespace Sys2Proof.Machine

open Sys2Proof.Certificates

/-! ### The frame of one instruction -/

/-- The parts that `exec_cases` does not speak of, other than V: each is as it was unless named. -/
def KeepsRest (may : List Part) (s t : State) : Prop :=
  (.ireg ∉ may → t.ireg = s.ireg) ∧ (.dt ∉ may → t.dt = s.dt) ∧ (.st ∉ may → t.st = s.st) ∧
  (.fb ∉ may → t.fb = s.fb) ∧ (.key ∉ may → t.key = s.key) ∧ (.draws ∉ may → t.draws = s.draws)

/-- Every register the instruction's rule does not write reads as before. -/
def KeepsRegs (i : Instr) (s t : State) : Prop := ∀ r, ¬ writesReg i r → t.getV r = s.getV r

/-- An instruction after which V is as it was keeps every register. -/
theorem keepsRegs_of_v {i : Instr} {s t : State} (h : t.v = s.v) : KeepsRegs i s t :=
  fun r _ => getV_congr h r

theorem getV_setV_of_ne {r x : Reg} (h : r ≠ x) (s : State) (b : Byte) :
    (s.setV x b).getV r = s.getV r := by
  rw [getV_setV, if_neg h]

/-- Fx65 reads V[0] to V[x] and leaves every register above x. -/
theorem getV_setVs_bytesAt_of_lt {r x : Reg} (h : x.toNat < r.toNat) (s u : State) (a : Nat) :
    (s.setVs 0 (u.bytesAt a (x.toNat + 1))).getV r = s.getV r := by
  have hx : x.toNat < 16 := x.isLt
  rw [getV_setVs _ _ _ _ (by simp; omega), dif_neg (by simp; omega)]

/-- What an instruction, completed or faulting, leaves unchanged of the parts `exec_cases` does not
speak of. -/
theorem exec_leaves {i : Instr} {s t : State} (h : exec i s = .next t) :
    KeepsRegs i s t ∧ KeepsRest (mayChange i) s t := by
  cases i with
  | cls d | jp nnn | jpV0 nnn | ldI nnn | addI x | ldF x | ldDtVx x | ldStVx x =>
    cases h
    exact ⟨keepsRegs_of_v rfl, by simp [KeepsRest, mayChange]⟩
  | seImm x nn | sneImm x nn | seReg x y n | sneReg x y n =>
    simp only [exec, execSeImm, execSneImm, execSeReg, execSneReg, skipIf_next] at h
    cases h
    exact ⟨keepsRegs_of_v rfl, by simp [KeepsRest]⟩
  | skp x | sknp x =>
    simp only [exec, execSkp, execSknp, skipIf_next, takeFault] at h
    split at h <;> cases h <;> exact ⟨keepsRegs_of_v rfl, by simp [KeepsRest]⟩
  | ret d | call nnn =>
    simp only [exec, execRet, execCall, takeFault] at h
    split at h
    · cases h
      exact ⟨keepsRegs_of_v rfl, by simp [KeepsRest]⟩
    · split at h <;> cases h
      exact ⟨keepsRegs_of_v rfl, by simp [KeepsRest]⟩
  | ldB x | storeRegs x =>
    simp only [exec, execLdB, execStoreRegs, takeFault] at h
    split at h <;> cases h <;> exact ⟨keepsRegs_of_v rfl, by simp [KeepsRest]⟩
  | ldImm x nn | addImm x nn | ldReg x y | orReg x y | andReg x y | xorReg x y | ldVxDt x
  | rnd x nn =>
    cases h
    exact ⟨fun r hr => getV_setV_of_ne hr _ _, by simp [KeepsRest, mayChange]⟩
  | addReg x y =>
    cases h
    refine ⟨fun r hr => ?_, by simp [KeepsRest]⟩
    obtain ⟨hx, hf⟩ := not_or.mp hr
    rw [getV_setV_of_ne hf, getV_setV_of_ne hx, getV_advance]
  | sub x y | shr x y | subn x y | shl x y =>
    cases h
    refine ⟨fun r hr => ?_, by simp [KeepsRest]⟩
    obtain ⟨hx, hf⟩ := not_or.mp hr
    rw [getV_flagThenResult, if_neg hx, if_neg hf]
  | drw x y n =>
    simp only [exec, execDrw, takeFault] at h
    split at h <;> cases h
    · exact ⟨fun r hr => getV_setV_of_ne hr _ _, by simp [KeepsRest, mayChange]⟩
    · exact ⟨keepsRegs_of_v rfl, by simp [KeepsRest]⟩
  | ldVxK x =>
    simp only [exec, execLdVxK, rewind_advance] at h
    split at h <;> cases h
    · exact ⟨fun r hr => getV_setV_of_ne hr _ _, by simp [KeepsRest, mayChange]⟩
    · exact ⟨keepsRegs_of_v rfl, by simp [KeepsRest]⟩
  | loadRegs x =>
    simp only [exec, execLoadRegs, takeFault] at h
    split at h <;> cases h
    · refine ⟨fun r hr => ?_, by simp [KeepsRest]⟩
      rw [getV_setVs_bytesAt_of_lt (Nat.lt_of_not_le hr), getV_advance]
    · exact ⟨keepsRegs_of_v rfl, by simp [KeepsRest]⟩

/-- An instruction whose fault condition can hold is one that may change FAULT. -/
theorem fault_mem_mayChange {i : Instr} {s : State} {kind : StepFault}
    (h : faultCondition i s = some kind) : .fault ∈ mayChange i := by
  cases i with
  | ret d | call nnn | skp x | sknp x | drw x y n | ldB x | storeRegs x | loadRegs x =>
    simp [mayChange]
  | _ => cases h

/-- An instruction that may not change the stack part leaves SP and STACK as they were. -/
theorem stack_of_stackMoves {i : Instr} {s t : State} (h : StackMoves i s t)
    (hi : .stack ∉ mayChange i) : t.sp = s.sp ∧ t.stack = s.stack := by
  cases i with
  | ret d | call nnn => simp [mayChange] at hi
  | _ => exact h

/-- Writing bytes that all exist leaves every byte outside their range. -/
theorem byteAt_of_writeBytes {s t : State} {a b : Nat} {ws : List Byte}
    (ht : t.mem = s.mem.writeBytes a ws) (ha : a + ws.length ≤ 4096)
    (hb : b < a ∨ a + ws.length ≤ b) : t.byteAt b = s.byteAt b := by
  rw [byteAt_congr (t := t) (s := s.storeBytes a ws) ht, byteAt_storeBytes _ _ _ _ ha,
    dif_neg (by omega)]

/-- A completed instruction leaves every byte outside the ones it stores from the address in I. -/
theorem byteAt_of_memMoves {i : Instr} {s t : State} (h : MemMoves i s t) {a : Nat}
    (ha : a < s.ireg.toNat ∨ s.ireg.toNat + storedCount i ≤ a) : t.byteAt a = s.byteAt a := by
  cases i with
  | ldB x =>
    obtain ⟨hle, ht⟩ := h
    exact byteAt_of_writeBytes ht hle ha
  | storeRegs x =>
    obtain ⟨hle, ht⟩ := h
    exact byteAt_of_writeBytes ht (by simpa using hle) (by rwa [length_firstVs])
  | _ => exact byteAt_congr h a

/-- An instruction that may not change memory stores no byte. -/
theorem storedCount_eq_zero {i : Instr} (h : .mem ∉ mayChange i) : storedCount i = 0 := by
  cases i with
  | ldB x | storeRegs x => simp [mayChange] at h
  | _ => rfl

/-- An instruction that writes a register is one that may change V. -/
theorem v_mem_mayChange {i : Instr} {r : Reg} (h : writesReg i r) : .v ∈ mayChange i := by
  cases i with
  | cls d | ret d | jp nnn | call nnn | seImm x nn | sneImm x nn | seReg x y n | sneReg x y n
  | ldI nnn | jpV0 nnn | skp x | sknp x | ldDtVx x | ldStVx x | addI x | ldF x | ldB x
  | storeRegs x => cases h
  | _ => simp [mayChange]

/-- Every byte outside the ones the instruction stores from the address in I reads as before. -/
theorem exec_byteAt {i : Instr} {s t : State} (h : exec i s = .next t) {a : Nat}
    (ha : a < s.ireg.toNat ∨ s.ireg.toNat + storedCount i ≤ a) : t.byteAt a = s.byteAt a := by
  obtain ⟨kind, -, rfl⟩ | ⟨-, -, -, -, hmem⟩ := exec_cases h
  · rfl
  · exact byteAt_of_memMoves hmem ha

/-- SP and STACK change only in RET and CALL. -/
theorem exec_stack {i : Instr} {s t : State} (h : exec i s = .next t)
    (hi : .stack ∉ mayChange i) : t.sp = s.sp ∧ t.stack = s.stack := by
  obtain ⟨kind, -, rfl⟩ | ⟨-, -, -, hstack, -⟩ := exec_cases h
  · exact ⟨rfl, rfl⟩
  · exact stack_of_stackMoves hstack hi

/-- FAULT changes only in the instructions that can fault. -/
theorem exec_fault {i : Instr} {s t : State} (h : exec i s = .next t)
    (hi : .fault ∉ mayChange i) : t.fault = s.fault := by
  obtain ⟨kind, hk, -⟩ | ⟨-, hfault, -, -, -⟩ := exec_cases h
  · exact absurd (fault_mem_mayChange hk) hi
  · exact hfault

/-- Settles O18. The clauses on whole parts come from the finer ones: an instruction that may not
change memory stores 0 bytes, and one that may not change V writes no register. -/
theorem instructionFrames : Obligations.InstructionFrames := by
  unfold Obligations.InstructionFrames
  intro i s t h
  obtain ⟨hregs, hireg, hdt, hst, hfb, hkey, hdraws⟩ := exec_leaves h
  have hmem : ∀ a, a < s.ireg.toNat ∨ s.ireg.toNat + storedCount i ≤ a →
      t.byteAt a = s.byteAt a := fun _ => exec_byteAt h
  refine ⟨⟨fun hi a => hmem a ?_, fun hi r => hregs r (hi ∘ v_mem_mayChange), hireg, exec_stack h,
    hdt, hst, hfb, hkey, exec_fault h, hdraws⟩, hregs, hmem⟩
  rw [storedCount_eq_zero hi]
  omega

end Sys2Proof.Machine

/-!
SUPPORT. The decoder gives back only instructions whose word it read (spec/30_encoding.md R90, R95).
-/

namespace Sys2Proof

/-! ### A word put together from its fields -/

theorem word_of_xnn {w : Word} {h x : Nibble} {nn : Byte} (hh : fieldH w = h) (hx : fieldX w = x)
    (hnn : fieldNN w = nn) : h ++ x ++ nn = w := by
  subst hh hx hnn; exact word_eq_xnn w

theorem word_of_xyn {w : Word} {h x y n : Nibble} (hh : fieldH w = h) (hx : fieldX w = x)
    (hy : fieldY w = y) (hn : fieldN w = n) : h ++ x ++ (y ++ n) = w := by
  subst hy hn; exact word_of_xnn hh hx (nn_eq_yn w).symm

theorem word_of_nnn {w : Word} {h : Nibble} {nnn : Addr12} (hh : fieldH w = h)
    (hn : fieldNNN w = nnn) : h ++ nnn = w := by
  subst hh hn; exact word_eq_nnn w

/-! ### What each group of the decoder answers -/

theorem eq_of_fixedDigit {m : DecodeMode} {d : Nibble} {i j : Instr}
    (h : fixedDigit m d i = some j) : i = j := by
  unfold fixedDigit at h
  split at h
  · exact Option.some.inj h
  · split at h
    · cases h
    · exact Option.some.inj h

theorem encode_of_decodeGroup0 {m : DecodeMode} {w : Word} {i : Instr} (hh : fieldH w = 0x0#4)
    (h : decodeGroup0 m w = some i) : encode i = w := by
  unfold decodeGroup0 at h
  split at h
  case h_3 => cases h
  all_goals
    rename_i hnn
    cases eq_of_fixedDigit h
    exact word_of_xnn hh rfl hnn

theorem encode_of_decodeGroup8 {w : Word} {i : Instr} (hh : fieldH w = 0x8#4)
    (h : decodeGroup8 w = some i) : encode i = w := by
  unfold decodeGroup8 at h
  split at h
  case h_10 => cases h
  all_goals
    rename_i hn
    cases h
    exact word_of_xyn hh rfl rfl hn

theorem encode_of_decodeGroupE {w : Word} {i : Instr} (hh : fieldH w = 0xE#4)
    (h : decodeGroupE w = some i) : encode i = w := by
  unfold decodeGroupE at h
  split at h
  case h_3 => cases h
  all_goals
    rename_i hnn
    cases h
    exact word_of_xnn hh rfl hnn

theorem encode_of_decodeGroupF {w : Word} {i : Instr} (hh : fieldH w = 0xF#4)
    (h : decodeGroupF w = some i) : encode i = w := by
  unfold decodeGroupF at h
  split at h
  case h_10 => cases h
  all_goals
    rename_i hnn
    cases h
    exact word_of_xnn hh rfl hnn

/-- The word of a decoded instruction is the word that was decoded, under either value of P_DECODE. -/
theorem encode_of_decodeWith {m : DecodeMode} {w : Word} {i : Instr}
    (h : decodeWith m w = some i) : encode i = w := by
  unfold decodeWith at h
  split at h
  -- The arms stand in the order of op[15:12]: `h_1` is group 0, `h_16` group F.
  case h_1 hh => exact encode_of_decodeGroup0 hh h
  case h_9 hh => exact encode_of_decodeGroup8 hh h
  case h_15 hh => exact encode_of_decodeGroupE hh h
  case h_16 hh => exact encode_of_decodeGroupF hh h
  case h_2 hh | h_3 hh | h_11 hh | h_12 hh => cases h; exact word_of_nnn hh rfl
  case h_4 hh | h_5 hh | h_7 hh | h_8 hh | h_13 hh => cases h; exact word_of_xnn hh rfl rfl
  case h_6 hh | h_10 hh => cases eq_of_fixedDigit h; exact word_of_xyn hh rfl rfl rfl
  case h_14 hh => cases h; exact word_of_xyn hh rfl rfl rfl
  case h_17 => cases h

end Sys2Proof

/-!
SUPPORT. The invariant of reachable states (spec/10_state.md R28, R29, R38; spec/60_exceptions.md
R282): each clause of `Inv` is kept by what `exec_cases` says a completed instruction does.
-/

namespace Sys2Proof.Machine

/-! ### The latch -/

theorem latchOk_of_no_fault {s : State} (h : s.fault = none) : LatchOk s := by
  simp only [LatchOk, h]

/-- The latch looks at FAULT, PC and memory alone. -/
theorem latchOk_congr {s t : State} (hfault : t.fault = s.fault) (hpc : t.pc = s.pc)
    (hmem : t.mem = s.mem) (h : LatchOk s) : LatchOk t := by
  simpa only [LatchOk, hfault, hpc, fetch_congr hpc hmem] using h

/-- A record of PC and the word there is consistent; with no word it has to be a fetch's. -/
theorem latchOk_latched {s : State} {kind : StepFault} {op : Option Word} (hop : op = fetch s)
    (hkind : op = none → kind = .memoryOutOfBounds) :
    LatchOk { s with fault := some ⟨kind, op, s.pc⟩ } :=
  ⟨rfl, hop, hkind⟩

/-! ### The invariant -/

/-- The invariant looks at memory, SP, PC, STACK and FAULT alone. -/
theorem inv_congr {s t : State} (hmem : t.mem = s.mem) (hsp : t.sp = s.sp) (hpc : t.pc = s.pc)
    (hstack : t.stack = s.stack) (hfault : t.fault = s.fault) (h : Inv s) : Inv t := by
  obtain ⟨hwf, hle, hpcle, hentries, hlatch⟩ := h
  exact ⟨hmem ▸ hwf, hsp ▸ hle, hpc ▸ hpcle, hstack ▸ hentries, latchOk_congr hfault hpc hmem hlatch⟩

/-- Latching a consistent fault keeps the invariant. -/
theorem inv_latched {s : State} {kind : StepFault} {op : Option Word} (h : Inv s)
    (hop : op = fetch s) (hkind : op = none → kind = .memoryOutOfBounds) :
    Inv { s with fault := some ⟨kind, op, s.pc⟩ } := by
  obtain ⟨hwf, hsp, hpc, hentries, -⟩ := h
  exact ⟨hwf, hsp, hpc, hentries, latchOk_latched hop hkind⟩

theorem inv_reset : Inv State.reset :=
  ⟨reset_mem_wf, by decide, by decide, by decide, latchOk_of_no_fault rfl⟩

/-! ### A completed instruction, clause by clause -/

/-- An address immediate is below 4096. -/
theorem zextAddr_toNat (nnn : Addr12) : (zextAddr nnn).toNat = nnn.toNat := by
  simp [zextAddr]; omega

/-- The sum of Bnnn needs no reduction. -/
theorem zextAddr_add_zextByte_toNat (nnn : Addr12) (b : Byte) :
    (zextAddr nnn + zextByte b).toNat = nnn.toNat + b.toNat := by
  simp [zextAddr, zextByte]; omega

/-- R28: from a PC that fetches, PC stays at most 0x10FE, the greatest target of Bnnn. -/
theorem pc_le_of_pcMoves {i : Instr} {s t : State} (hpc : s.pc.toNat ≤ 0xFFE)
    (hentries : ∀ k : Fin 16, s.stack[k].toNat ≤ 0x1000) (h : PcMoves i s t) :
    t.pc.toNat ≤ 0x10FE := by
  cases i with
  | ret d =>
    obtain ⟨k, -, ht⟩ := h
    rw [ht]
    exact (hentries k).trans (by decide)
  | jp nnn | call nnn =>
    rw [show t.pc = zextAddr nnn from h, zextAddr_toNat]
    omega
  | jpV0 nnn =>
    rw [show t.pc = zextAddr nnn + zextByte (s.getV 0) from h, zextAddr_add_zextByte_toNat]
    omega
  | seImm x nn | sneImm x nn | seReg x y n | sneReg x y n | skp x | sknp x =>
    obtain ht | ht : t.pc = s.pc + 2#16 ∨ t.pc = s.pc + 4#16 := h <;> bv_omega
  | ldVxK x =>
    obtain ht | rfl : t.pc = s.pc + 2#16 ∨ t = s := h
    · bv_omega
    · omega
  | _ =>
    have ht : t.pc = s.pc + 2#16 := h
    bv_omega

/-- R29: a RET that completes has an entry to pop, a CALL that completes has room for one. -/
theorem sp_le_of_stackMoves {i : Instr} {s t : State} (hsp : s.sp.toNat ≤ 16)
    (h : StackMoves i s t) : t.sp.toNat ≤ 16 := by
  cases i with
  | ret d =>
    obtain ⟨hpos, -, ht, -⟩ := h
    bv_omega
  | call nnn =>
    obtain ⟨k, hk, ht, -⟩ := h
    bv_omega
  | _ =>
    obtain ⟨ht, -⟩ := h
    rwa [ht]

/-- R38: the only address ever pushed is that of the word after a fetched CALL. -/
theorem stack_le_of_stackMoves {i : Instr} {s t : State} (hpc : s.pc.toNat ≤ 0xFFE)
    (hentries : ∀ k : Fin 16, s.stack[k].toNat ≤ 0x1000) (h : StackMoves i s t) (k : Fin 16) :
    t.stack[k].toNat ≤ 0x1000 := by
  cases i with
  | ret d =>
    obtain ⟨-, -, -, ht⟩ := h
    rw [ht]
    exact hentries k
  | call nnn =>
    obtain ⟨j, -, -, ht⟩ := h
    rw [ht, Fin.getElem_fin, Vector.getElem_set]
    split
    · bv_omega
    · exact hentries k
  | _ =>
    obtain ⟨-, ht⟩ := h
    rw [ht]
    exact hentries k

/-- The stores of Fx33 and Fx55 keep memory canonical, and nothing else stores. -/
theorem mem_wf_of_memMoves {i : Instr} {s t : State} (hwf : s.mem.wf) (h : MemMoves i s t) :
    t.mem.wf := by
  cases i with
  | ldB x | storeRegs x =>
    obtain ⟨-, ht⟩ := h
    rw [ht]
    exact Memory.writeBytes_wf _ _ hwf
  | _ =>
    rw [show t.mem = s.mem from h]
    exact hwf

/-- A word that matches no row keeps the invariant. -/
theorem inv_advance {s : State} (hfault : s.fault = none) (hpc : s.pc.toNat ≤ 0xFFE) (h : Inv s) :
    Inv s.advance := by
  obtain ⟨hwf, hsp, -, hentries, -⟩ := h
  refine ⟨hwf, hsp, ?_, hentries, latchOk_of_no_fault hfault⟩
  rw [State.advance_pc]
  bv_omega

/-- The instruction that was fetched keeps the invariant: a fault it takes records the word at PC. -/
theorem exec_keeps_inv {i : Instr} {s t : State} (hfault : s.fault = none)
    (hpc : s.pc.toNat ≤ 0xFFE) (hfetch : fetch s = some (encode i)) (h : Inv s)
    (hexec : exec i s = .next t) : Inv t := by
  obtain ⟨kind, -, rfl⟩ | ⟨-, ht, hpcMoves, hstackMoves, hmemMoves⟩ := exec_cases hexec
  · exact inv_latched h hfetch.symm (by simp)
  · obtain ⟨hwf, hsp, -, hentries, -⟩ := h
    exact ⟨mem_wf_of_memMoves hwf hmemMoves, sp_le_of_stackMoves hsp hstackMoves,
      pc_le_of_pcMoves hpc hentries hpcMoves, stack_le_of_stackMoves hpc hentries hstackMoves,
      latchOk_of_no_fault (ht.trans hfault)⟩

/-- Settles O14, along the ways a step answers (`step_cases`). -/
theorem stepKeepsInv : Obligations.StepKeepsInv := by
  unfold Obligations.StepKeepsInv
  intro s t h hstep
  obtain ⟨-, rfl⟩ | ⟨-, hpc, rfl⟩ | ⟨hfault, hpc, w, hfetch, hrun⟩ := step_cases hstep
  · exact h
  · exact inv_latched h (fetch_of_gt hpc).symm fun _ => rfl
  · obtain ⟨-, rfl⟩ | ⟨i, hdecode, hexec⟩ := hrun
    · exact inv_advance hfault hpc h
    · exact exec_keeps_inv hfault hpc (by rw [hfetch, encode_of_decodeWith hdecode]) h hexec

/-- Settles O16: a core with no fault and SP at most 16 runs an instruction that always answers. -/
theorem stepNeverStops : Obligations.StepNeverStops := by
  unfold Obligations.StepNeverStops
  rintro s ⟨-, hsp, -, -, -⟩
  by_cases hfault : s.fault = none
  · cases hfetch : fetch s with
    | none => exact ⟨_, step_of_no_fetch hfault hfetch⟩
    | some w =>
      cases hdecode : decode w with
      | none => exact ⟨_, step_of_unmatched hfault hfetch hdecode⟩
      | some i =>
        rw [step_of_decode hfault hfetch hdecode]
        exact exec_next_of_sp i s hsp
  · exact ⟨s, step_of_fault hfault⟩

/-! ### The invariant of a run -/

theorem sessionInv_start : Session.start.Inv := ⟨inv_reset, fun _ => rfl⟩

/-- Settles O13: memory starts with no entry, PC at 0x200, and SP and every entry at 0. -/
theorem invAtReset : Obligations.InvAtReset := ⟨inv_reset, sessionInv_start⟩

/-- Storing bytes in a core with no fault keeps the invariant. -/
theorem inv_storeBytes {s : State} (hfault : s.fault = none) (h : Inv s) (a : Nat)
    (ws : List Byte) : Inv (s.storeBytes a ws) := by
  obtain ⟨hwf, hsp, hpc, hentries, -⟩ := h
  exact ⟨Memory.writeBytes_wf a ws hwf, hsp, hpc, hentries, latchOk_of_no_fault hfault⟩

/-- A Tick changes DT and ST alone. -/
theorem tick_eq (s : State) : tick s = { s with dt := (tick s).dt, st := (tick s).st } := by
  unfold tick
  split <;> rfl

theorem tick_fault (s : State) : (tick s).fault = s.fault := by rw [tick_eq]

theorem inv_tick {s : State} (h : Inv s) : Inv (tick s) := by
  rw [tick_eq]
  exact inv_congr rfl rfl rfl rfl rfl h

theorem inv_setKey {s : State} (h : Inv s) (k : Fin 16) (b : Bool) : Inv (s.setKey k b) :=
  inv_congr rfl rfl rfl rfl rfl h

theorem inv_resetCore (s : State) : Inv (resetCore s) := inv_congr rfl rfl rfl rfl rfl inv_reset

/-- A Load that answers was made on a fresh run, and stores the ROM at 0x200. -/
theorem load_next {z z' : Session} {rom : List Byte} {resp : Response}
    (h : z.load rom = .next (resp, z')) :
    z.stage = .fresh ∧ z' = ⟨.started, z.core.storeBytes 0x200 rom⟩ := by
  unfold Session.load at h
  split at h
  · cases h
  · rename_i hstage
    by_cases hlen : rom.length ≤ 3584
    · rw [loadRom, if_pos hlen] at h
      cases h
      exact ⟨hstage, rfl⟩
    · rw [loadRom, if_neg hlen] at h
      cases h

/-- A Step that answers starts the run and is a step of the core. -/
theorem sessionStep_next {z z' : Session} {resp : Response} (h : z.step = .next (resp, z')) :
    ∃ t, step z.core = .next t ∧ z' = ⟨.started, t⟩ := by
  unfold Session.step at h
  split at h <;> cases h
  exact ⟨_, ‹_›, rfl⟩

/-- The invariant of a run that has started is the invariant of its core. -/
theorem sessionInv_started {s : State} (h : Inv s) : Session.Inv ⟨.started, s⟩ :=
  ⟨h, fun hstage => by cases hstage⟩

/-- Settles O15, transaction by transaction: a Load meets no fault, since it answers only on a fresh
run, and Step is O14. -/
theorem transactionsKeepInv : Obligations.TransactionsKeepInv := by
  unfold Obligations.TransactionsKeepInv
  intro z z' tr resp hz happly
  obtain ⟨hinv, hfresh⟩ := hz
  cases tr with
  | reset => cases happly; exact ⟨inv_resetCore _, fun _ => rfl⟩
  | load rom =>
    obtain ⟨hstage, rfl⟩ := load_next happly
    exact sessionInv_started (inv_storeBytes (hfresh hstage) hinv _ _)
  | step =>
    obtain ⟨t, hstep, rfl⟩ := sessionStep_next happly
    exact sessionInv_started (stepKeepsInv _ _ hinv hstep)
  | tick => cases happly; exact ⟨inv_tick hinv, fun hs => (tick_fault _).trans (hfresh hs)⟩
  | keyDown k | keyUp k => cases happly; exact ⟨inv_setKey hinv k _, hfresh⟩
  | readFB | readSound | readFault => cases happly; exact ⟨hinv, hfresh⟩

end Sys2Proof.Machine

/-!
SUPPORT. What no step reads: the sound timer (spec/10_state.md R31) and the stack entries at index SP
or above (R30). A step commutes with every change of ST and STACK that it cannot see.
-/

namespace Sys2Proof.Machine

/-! ### RET and CALL at each value of SP -/

theorem stackSlot_none (sp : Byte) (h : 16 ≤ sp.toNat) : stackSlot sp = none := by
  rw [stackSlot, dif_neg (by omega)]

theorem sp_cases_ret (s : State) :
    s.sp = 0#8 ∨ (∃ k : Fin 16, s.sp.toNat = k.val + 1) ∨ 16 < s.sp.toNat := by
  obtain h | h | h : s.sp.toNat = 0 ∨ (1 ≤ s.sp.toNat ∧ s.sp.toNat ≤ 16) ∨ 16 < s.sp.toNat := by
    omega
  · exact .inl (BitVec.eq_of_toNat_eq h)
  · exact .inr (.inl ⟨⟨s.sp.toNat - 1, by omega⟩, (Nat.sub_add_cancel h.1).symm⟩)
  · exact .inr (.inr h)

theorem sp_cases_call (s : State) :
    s.sp = 16#8 ∨ (∃ k : Fin 16, s.sp.toNat = k.val) ∨ 16 < s.sp.toNat := by
  obtain h | h | h := Nat.lt_trichotomy s.sp.toNat 16
  · exact .inr (.inl ⟨⟨s.sp.toNat, h⟩, rfl⟩)
  · exact .inl (BitVec.eq_of_toNat_eq h)
  · exact .inr (.inr h)

theorem execRet_empty {s : State} (d : Nibble) (h : s.sp = 0#8) :
    exec (.ret d) s = takeFault .stackUnderflow (.ret d) s := if_pos h

theorem execRet_pops {s : State} {k : Fin 16} (d : Nibble) (h : s.sp.toNat = k.val + 1) :
    exec (.ret d) s = .next { s with pc := s.stack[k], sp := s.sp - 1#8 } := by
  have h0 : s.sp ≠ 0#8 := by bv_omega
  have hk : stackSlot (s.sp - 1#8) = some k := stackSlot_of _ k (by bv_omega)
  simp only [exec, execRet, if_neg h0, hk]
  rfl

theorem execRet_stops {s : State} (d : Nibble) (h : 16 < s.sp.toNat) :
    exec (.ret d) s = .fault .stackPointerOutOfRange := by
  have h0 : s.sp ≠ 0#8 := by bv_omega
  have hk : stackSlot (s.sp - 1#8) = none := stackSlot_none _ (by bv_omega)
  simp only [exec, execRet, if_neg h0, hk]

theorem execCall_full {s : State} (nnn : Addr12) (h : s.sp = 16#8) :
    exec (.call nnn) s = takeFault .stackOverflow (.call nnn) s := if_pos h

theorem execCall_pushes {s : State} {k : Fin 16} (nnn : Addr12) (h : s.sp.toNat = k.val) :
    exec (.call nnn) s = .next { s with
      pc := zextAddr nnn, sp := s.sp + 1#8, stack := s.stack.set k (s.pc + 2#16) } := by
  have h16 : s.sp ≠ 16#8 := by bv_omega
  simp only [exec, execCall, if_neg h16, stackSlot_of _ k h]
  rfl

theorem execCall_stops {s : State} (nnn : Addr12) (h : 16 < s.sp.toNat) :
    exec (.call nnn) s = .fault .stackPointerOutOfRange := by
  have h16 : s.sp ≠ 16#8 := by bv_omega
  simp only [exec, execCall, if_neg h16, stackSlot_none _ h.le]

/-! ### A change of the sound timer and of the stack entries -/

/-- The state with ST changed by `f` and STACK changed by `g`. -/
def State.mapStStack (f : Byte → Byte) (g : Vector Word 16 → Vector Word 16) (s : State) : State :=
  { s with st := f s.st, stack := g s.stack }

/-- A change of the next state, if there is one. -/
def mapNext (f : State → State) : Result → Result
  | .next t => .next (f t)
  | .fault r => .fault r
  | .refused r => .refused r

/-- A change made on both branches. -/
theorem ite_eq_mapNext {F : State → State} {c : Bool} {a b a' b' : Result}
    (ha : a' = mapNext F a) (hb : b' = mapNext F b) :
    (if c then a' else b') = mapNext F (if c then a else b) := by
  subst ha hb
  cases c <;> rfl

section
variable (f : Byte → Byte) (g : Vector Word 16 → Vector Word 16) (s : State)

@[simp] theorem mapStStack_ireg : (s.mapStStack f g).ireg = s.ireg := rfl

@[simp] theorem getV_mapStStack (r : Reg) : (s.mapStStack f g).getV r = s.getV r := rfl

@[simp] theorem firstPressed_mapStStack : firstPressed (s.mapStStack f g) = firstPressed s := rfl

theorem setVs_mapStStack (k : Nat) (bs : List Byte) :
    (s.mapStStack f g).setVs k bs = (s.setVs k bs).mapStStack f g := by
  induction bs generalizing s k with
  | nil => rfl
  | cons b bs ih => exact ih (s.setV (BitVec.ofNat 4 k) b) (k + 1)

/-- RET reads one entry, the one below SP. -/
theorem execRet_mapStStack (d : Nibble)
    (h : ∀ k : Fin 16, s.sp.toNat = k.val + 1 → (g s.stack)[k] = s.stack[k]) :
    exec (.ret d) (s.mapStStack f g) = mapNext (State.mapStStack f g) (exec (.ret d) s) := by
  obtain h0 | ⟨k, hk⟩ | h17 := sp_cases_ret s
  · rw [execRet_empty d h0, execRet_empty (s := s.mapStStack f g) d h0]
    rfl
  · rw [execRet_pops d hk, execRet_pops (s := s.mapStStack f g) d hk]
    simp only [mapNext, State.mapStStack, h k hk]
  · rw [execRet_stops d h17, execRet_stops (s := s.mapStStack f g) d h17]
    rfl

/-- CALL writes one entry, the one at SP. -/
theorem execCall_mapStStack (nnn : Addr12)
    (h : ∀ (k : Fin 16) (w : Word), s.sp.toNat = k.val → (g s.stack).set k w = g (s.stack.set k w)) :
    exec (.call nnn) (s.mapStStack f g) = mapNext (State.mapStStack f g) (exec (.call nnn) s) := by
  obtain h16 | ⟨k, hk⟩ | h17 := sp_cases_call s
  · rw [execCall_full nnn h16, execCall_full (s := s.mapStStack f g) nnn h16]
    rfl
  · rw [execCall_pushes nnn hk, execCall_pushes (s := s.mapStStack f g) nnn hk]
    simp only [mapNext, State.mapStStack, h k _ hk]
  · rw [execCall_stops nnn h17, execCall_stops (s := s.mapStStack f g) nnn h17]
    rfl

/-- Every instruction but RET, CALL and Fx18 leaves ST and STACK alone, and reads neither. -/
theorem exec_mapStStack {i : Instr} (hret : ∀ d, i ≠ .ret d) (hcall : ∀ nnn, i ≠ .call nnn)
    (hst : ∀ x, i ≠ .ldStVx x) :
    exec i (s.mapStStack f g) = mapNext (State.mapStStack f g) (exec i s) := by
  cases i with
  | ret d => exact absurd rfl (hret d)
  | call nnn => exact absurd rfl (hcall nnn)
  | ldStVx x => exact absurd rfl (hst x)
  | seImm x nn | sneImm x nn | seReg x y n | sneReg x y n =>
    simp only [exec, execSeImm, execSneImm, execSeReg, execSneReg, skipIf_next]
    rfl
  | skp x | sknp x =>
    simp only [exec, execSkp, execSknp, getV_mapStStack, skipIf_next]
    split <;> rfl
  | ldVxK x =>
    simp only [exec, execLdVxK, firstPressed_mapStStack]
    split <;> rfl
  | ldB x | storeRegs x | drw x y n => exact ite_eq_mapNext rfl rfl
  | loadRegs x =>
    exact ite_eq_mapNext (congrArg Host.Outcome.next (setVs_mapStStack f g s.advance 0 _)) rfl
  | _ => rfl

/-- After a change of ST and STACK a step runs the instruction it would have run; where it runs none,
it commutes with the change. -/
theorem step_mapStStack :
    (∃ i, step s = exec i s ∧ step (s.mapStStack f g) = exec i (s.mapStStack f g)) ∨
      step (s.mapStStack f g) = mapNext (State.mapStStack f g) (step s) := by
  by_cases hfault : s.fault = none
  · cases hfetch : fetch s with
    | none =>
      right
      rw [step_of_no_fetch hfault hfetch,
        step_of_no_fetch (s := s.mapStStack f g) hfault hfetch]
      rfl
    | some w =>
      cases hdecode : decode w with
      | none =>
        right
        rw [step_of_unmatched hfault hfetch hdecode,
          step_of_unmatched (s := s.mapStStack f g) hfault hfetch hdecode]
        rfl
      | some i =>
        exact .inl ⟨i, step_of_decode hfault hfetch hdecode,
          step_of_decode (s := s.mapStStack f g) hfault hfetch hdecode⟩
  · right
    rw [step_of_fault hfault, step_of_fault (s := s.mapStStack f g) hfault]
    rfl

end

/-! ### The sound timer -/

/-- No instruction reads ST; Fx18 overwrites it. -/
theorem exec_next_of_st {i : Instr} {s t : State} (b : Byte) (h : exec i s = .next t) :
    ∃ b', exec i { s with st := b } = .next { t with st := b' } := by
  have commutes (he : exec i (s.mapStStack (fun _ => b) id) =
      mapNext (State.mapStStack (fun _ => b) id) (exec i s)) :
      ∃ b', exec i { s with st := b } = .next { t with st := b' } :=
    ⟨b, by rw [h] at he; exact he⟩
  cases i with
  | ldStVx x => cases h; exact ⟨s.getV x, rfl⟩
  | ret d => exact commutes (execRet_mapStStack _ _ s d fun _ _ => rfl)
  | call nnn => exact commutes (execCall_mapStStack _ _ s nnn fun _ _ _ => rfl)
  | _ => exact commutes (exec_mapStStack _ _ s (by simp) (by simp) (by simp))

/-- Settles O20: a step that runs an instruction by `exec_next_of_st`, any other step because it leaves
ST alone. -/
theorem noInstructionReadsSoundTimer : Obligations.NoInstructionReadsSoundTimer := by
  unfold Obligations.NoInstructionReadsSoundTimer
  intro s t b hstep
  obtain ⟨i, hs, hs'⟩ | he := step_mapStStack (fun _ => b) id s
  · obtain ⟨b', ht⟩ := exec_next_of_st b (hs ▸ hstep)
    exact ⟨b', hs'.trans ht⟩
  · rw [hstep] at he
    exact ⟨b, he⟩

/-! ### Dead stack entries -/

/-- What the entry at SP held before a CALL does not matter. -/
theorem execCall_set_entry_at_sp {s : State} {k : Fin 16} (nnn : Addr12) (e : Word)
    (h : s.sp.toNat = k.val) :
    exec (.call nnn) { s with stack := s.stack.set k e } = exec (.call nnn) s := by
  rw [execCall_pushes nnn h, execCall_pushes (s := { s with stack := s.stack.set k e }) nnn h]
  simp only [Vector.set_set]

/-- No instruction reads an entry at index SP or above; CALL overwrites the entry at SP. -/
theorem exec_next_of_dead_entry {i : Instr} {s t : State} {k : Fin 16} (e : Word)
    (hk : s.sp.toNat ≤ k.val) (h : exec i s = .next t) :
    ∃ e', exec i { s with stack := s.stack.set k e } =
      .next { t with stack := t.stack.set k e' } := by
  have commutes (he : exec i (s.mapStStack id fun es => es.set k e) =
      mapNext (State.mapStStack id fun es => es.set k e) (exec i s)) :
      ∃ e', exec i { s with stack := s.stack.set k e } =
        .next { t with stack := t.stack.set k e' } :=
    ⟨e, by rw [h] at he; exact he⟩
  cases i with
  | ldStVx x => exact commutes rfl
  | ret d =>
    refine commutes (execRet_mapStStack _ _ s d fun j hj => ?_)
    rw [Fin.getElem_fin, Vector.getElem_set_ne _ _ (by omega)]
    rfl
  | call nnn =>
    by_cases hsp : s.sp.toNat = k.val
    · refine ⟨t.stack[k], (execCall_set_entry_at_sp nnn e hsp).trans (h.trans ?_)⟩
      rw [Fin.getElem_fin, Vector.set_getElem_self]
    · refine commutes (execCall_mapStStack _ _ s nnn fun j w hj => ?_)
      exact Vector.set_comm _ _ (by omega)
  | _ => exact commutes (exec_mapStStack _ _ s (by simp) (by simp) (by simp))

/-- Settles O21: a step that runs an instruction by `exec_next_of_dead_entry`, any other step because
it leaves STACK alone. -/
theorem deadStackEntriesUnread : Obligations.DeadStackEntriesUnread := by
  unfold Obligations.DeadStackEntriesUnread
  intro s t k e hk hstep
  obtain ⟨i, hs, hs'⟩ | he := step_mapStStack id (fun es => es.set k e) s
  · obtain ⟨e', ht⟩ := exec_next_of_dead_entry e hk (hs ▸ hstep)
    exact ⟨e', hs'.trans ht⟩
  · rw [hstep] at he
    exact ⟨e, he⟩

end Sys2Proof.Machine

/-!
SUPPORT. The writers of VF (spec/10_state.md R24), from the frame of every instruction, and the reset
table (R40).
-/

namespace Sys2Proof.Machine

open Sys2Proof.Certificates

/-! ### VF -/

/-- An instruction writes every register whose value differs after it. -/
theorem writesReg_of_getV_ne {i : Instr} {s t : State} {r : Reg} (h : exec i s = .next t)
    (hne : t.getV r ≠ s.getV r) : writesReg i r := by
  obtain ⟨hregs, -⟩ := exec_leaves h
  exact not_not.mp fun hr => hne (hregs r hr)

/-- Fx65 loads VF only where it loads every register. -/
theorem eq_vF_of_le {x : Reg} (h : vF.toNat ≤ x.toNat) : vF = x :=
  BitVec.eq_of_toNat_eq (le_antisymm h (Nat.le_of_lt_succ x.isLt))

/-- Settles O19: VF is written by the instructions whose rule writes it, as a flag or as Vx with
x = F. -/
theorem vfWrittenOnlyByItsWriters : Obligations.VfWrittenOnlyByItsWriters := by
  unfold Obligations.VfWrittenOnlyByItsWriters
  intro i s t h hne
  have hw : writesReg i vF := writesReg_of_getV_ne h hne
  cases i with
  | ldImm x nn | addImm x nn | ldReg x y | orReg x y | andReg x y | xorReg x y | rnd x nn
  | ldVxDt x | ldVxK x =>
    obtain rfl : vF = x := hw
    simp
  | loadRegs x =>
    obtain rfl : vF = x := eq_vF_of_le hw
    simp
  | addReg x y | sub x y | shr x y | subn x y | shl x y | drw x y n => simp
  | _ => exact hw.elim

/-! ### Reset -/

theorem byteAt_reset (a : Nat) :
    State.reset.byteAt a = if a ≤ 0x4F then fontByte a else 0x00#8 :=
  if_congr Nat.lt_succ_iff rfl rfl

theorem getV_reset (r : Reg) : State.reset.getV r = 0x00#8 := Vector.getElem_replicate _

theorem stack_reset (k : Fin 16) : State.reset.stack[k] = 0x0000#16 := Vector.getElem_replicate _

theorem getKey_reset (k : Fin 16) : State.reset.getKey k = false := Vector.getElem_replicate _

theorem cell_reset (px py : Nat) : FrameBuffer.cell State.reset.fb px py = false := by
  unfold FrameBuffer.cell
  split
  · simp [State.reset]
  · rfl

/-- Settles O17: memory has no entry, so that every byte is the background's; each of the other parts
is read off `State.reset`. -/
theorem resetValues : Obligations.ResetValues :=
  ⟨byteAt_reset, getV_reset, rfl, rfl, rfl, stack_reset, rfl, rfl, fun _ => cell_reset _ _,
    getKey_reset, rfl⟩

end Sys2Proof.Machine

/-!
SUPPORT. The transfers Fx55 and Fx65 inside memory (spec/43_index_memory.md R204, R205), the fetch of
stored bytes (spec/20_memory.md R65, R66), and the arbiter's Step and Tick (R71).
-/

namespace Sys2Proof.Machine

/-! ### V[0] to V[x] in memory -/

/-- Fx55 completes where its last byte exists. -/
theorem exec_storeRegs_of_lt {x : Reg} {s : State} (h : s.ireg.toNat + x.toNat < 4096) :
    exec (.storeRegs x) s = .next (s.advance.storeBytes s.ireg.toNat (s.firstVs x)) :=
  if_pos ((inMemory_iff _ _).mpr (.inr h))

/-- Fx65 completes where its last byte exists. -/
theorem exec_loadRegs_of_lt {x : Reg} {s : State} (h : s.ireg.toNat + x.toNat < 4096) :
    exec (.loadRegs x) s = .next (s.advance.setVs 0 (s.bytesAt s.ireg.toNat (x.toNat + 1))) :=
  if_pos ((inMemory_iff _ _).mpr (.inr h))

/-- After V[0] to V[x] are stored from `a`, V[k] is at `a + k`. -/
theorem byteAt_storeBytes_firstVs {x k : Reg} {a : Nat} (ha : a + x.toNat < 4096)
    (hk : k.toNat ≤ x.toNat) (s u : State) :
    (u.storeBytes a (s.firstVs x)).byteAt (a + k.toNat) = s.getV k := by
  rw [byteAt_storeBytes _ _ _ _ (by rw [length_firstVs]; omega),
    dif_pos (by rw [length_firstVs]; omega), getElem_firstVs, Nat.add_sub_cancel_left,
    BitVec.ofNat_toNat, BitVec.setWidth_eq]

/-- After V[0] to V[x] are loaded from `a`, V[k] is the byte at `a + k`. -/
theorem getV_setVs_bytesAt_of_le {x k : Reg} (hk : k.toNat ≤ x.toNat) (s u : State) (a : Nat) :
    (s.setVs 0 (u.bytesAt a (x.toNat + 1))).getV k = u.byteAt (a + k.toNat) := by
  have hx : x.toNat < 16 := x.isLt
  rw [getV_setVs _ _ _ _ (by rw [length_bytesAt]; omega),
    dif_pos (by rw [length_bytesAt]; omega), getElem_bytesAt, Nat.sub_zero]

/-- Settles O40: the load reads `I + k` in the memory that the store left, whatever V and PC are. -/
theorem storeThenLoadReadsBack : Obligations.StoreThenLoadReadsBack := by
  unfold Obligations.StoreThenLoadReadsBack
  intro x s h
  refine ⟨_, exec_storeRegs_of_lt h, fun regs pc => ⟨_, exec_loadRegs_of_lt h, fun k hk => ?_⟩⟩
  rw [getV_setVs_bytesAt_of_le hk]
  exact byteAt_storeBytes_firstVs h hk s s.advance

/-! ### The fetch -/

/-- Settles O41: I is at most 0xFFE, so the fetch there succeeds, and it reads V[0] and V[1]. -/
theorem fetchSeesStores : Obligations.FetchSeesStores := by
  unfold Obligations.FetchSeesStores
  intro x s hx h
  refine ⟨_, exec_storeRegs_of_lt h, ?_⟩
  rw [fetch_of_le (by dsimp only; omega)]
  exact congrArg some (congrArg₂ (· ++ ·)
    (byteAt_storeBytes_firstVs (k := 0) h (Nat.zero_le _) s s.advance)
    (byteAt_storeBytes_firstVs (k := 1) h hx s s.advance))

/-- Settles O9: above 0xFFE the fetch has no word. -/
theorem fetchPastTopFaults : Obligations.FetchPastTopFaults := by
  unfold Obligations.FetchPastTopFaults
  intro s hfault hpc
  exact step_of_no_fetch hfault (fetch_of_gt hpc)

/-! ### Step and Tick in a run -/

theorem sessionStep_of_next {z : Session} {t : State} (h : step z.core = .next t) :
    z.step = .next (.done, ⟨.started, t⟩) := by
  simp only [Session.step, h]

theorem sessionStep_of_fault {z : Session} {r : Fault} (h : step z.core = .fault r) :
    z.step = .fault r := by
  simp only [Session.step, h]

/-- Settles O55: the arbiter's Step is `Session.step`, and its Tick ticks the core by definition. -/
theorem stepAndTickInRun : Obligations.StepAndTickInRun := by
  unfold Obligations.StepAndTickInRun
  exact fun z => ⟨fun _ => sessionStep_of_next, fun _ => sessionStep_of_fault, rfl⟩

end Sys2Proof.Machine

/-!
SUPPORT. The round trip of the decoder and the encoder (spec/30_encoding.md R90, R95), and from it what
LOOSE adds (R98) and the opcode map under STRICT (R95, R96).
-/

namespace Sys2Proof

open Sys2Proof.Certificates

/-! ### The round trip -/

theorem wellFormed_of_freeDigit {i : Instr} (h : i.freeDigit = 0#4) (m : DecodeMode) :
    i.wellFormed m = true := by
  simp only [Instr.wellFormed, h, beq_self_eq_true, Bool.true_or]

theorem wellFormed_loose (i : Instr) : i.wellFormed .loose = true := Bool.or_true _

/-- `fixedDigit` checks an instruction's free digit as well-formedness does. -/
theorem fixedDigit_freeDigit (m : DecodeMode) (i : Instr) :
    fixedDigit m i.freeDigit i = if i.wellFormed m = true then some i else none := by
  by_cases h : i.freeDigit = 0#4
  · simp [fixedDigit, Instr.wellFormed, h]
  · cases m <;> simp [fixedDigit, Instr.wellFormed, h]

/-- The decoder reads an instruction's own word as that instruction, once its free digit is checked. -/
theorem decodeWith_encode (m : DecodeMode) (i : Instr) :
    decodeWith m (encode i) = fixedDigit m i.freeDigit i := by
  cases i with
  | jp | call | ldI | jpV0 => simp only [encode, decodeWith, fieldH_nnn, fieldNNN_nnn]; rfl
  | seImm | sneImm | ldImm | addImm | rnd =>
    simp only [encode, decodeWith, fieldH_xnn, fieldX_xnn, fieldNN_xnn]; rfl
  | seReg | sneReg | drw =>
    simp only [encode, decodeWith, fieldH_xyn, fieldX_xyn, fieldY_xyn, fieldN_xyn]; rfl
  | cls | ret =>
    simp only [encode, decodeWith, decodeGroup0, fieldH_xnn, fieldX_xnn, fieldNN_xnn]; rfl
  | ldReg | orReg | andReg | xorReg | addReg | sub | shr | subn | shl =>
    simp only [encode, decodeWith, decodeGroup8, fieldH_xyn, fieldX_xyn, fieldY_xyn, fieldN_xyn]; rfl
  | skp | sknp =>
    simp only [encode, decodeWith, decodeGroupE, fieldH_xnn, fieldX_xnn, fieldNN_xnn]; rfl
  | ldVxDt | ldVxK | ldDtVx | ldStVx | addI | ldF | ldB | storeRegs | loadRegs =>
    simp only [encode, decodeWith, decodeGroupF, fieldH_xnn, fieldX_xnn, fieldNN_xnn]; rfl

/-- The decoder inverts the encoder on the well-formed instructions, and answers nothing else. -/
theorem decodeWith_eq_some_iff {m : DecodeMode} {w : Word} {i : Instr} :
    decodeWith m w = some i ↔ encode i = w ∧ i.wellFormed m = true := by
  constructor
  · intro h
    have hw : encode i = w := encode_of_decodeWith h
    refine ⟨hw, ?_⟩
    rw [← hw, decodeWith_encode, fixedDigit_freeDigit] at h
    exact (Option.ite_none_right_eq_some.mp h).1
  · rintro ⟨rfl, hwf⟩
    rw [decodeWith_encode, fixedDigit_freeDigit, if_pos hwf]

/-- Settles O1, the direction of the round trip that starts from an instruction. -/
theorem decodeOfEncode : Obligations.DecodeOfEncode := by
  unfold Obligations.DecodeOfEncode
  exact fun m i hwf => decodeWith_eq_some_iff.mpr ⟨rfl, hwf⟩

/-- Settles O2, the direction of the round trip that starts from a word. -/
theorem encodeOfDecode : Obligations.EncodeOfDecode := by
  unfold Obligations.EncodeOfDecode
  exact fun m w i h => decodeWith_eq_some_iff.mp h

/-- An instruction whose free digit is 0 is read from its word under both values of P_DECODE. -/
theorem reads_of_encode {w : Word} {i : Instr} (hw : encode i = w) (hd : i.freeDigit = 0#4) :
    Reads w i := fun m =>
  decodeWith_eq_some_iff.mpr ⟨hw, wellFormed_of_freeDigit hd m⟩

/-- Settles O5: each word is the encoding of its instruction. -/
theorem sampleWordsDecode : Obligations.SampleWordsDecode := by
  unfold Obligations.SampleWordsDecode
  exact ⟨reads_of_encode rfl rfl, reads_of_encode rfl rfl, reads_of_encode rfl rfl,
    reads_of_encode rfl rfl, reads_of_encode rfl rfl, reads_of_encode rfl rfl,
    reads_of_encode rfl rfl, reads_of_encode rfl rfl⟩

/-! ### What LOOSE adds (R98) -/

/-- Under LOOSE every word of an instruction decodes to it. -/
theorem decodeWith_loose_of_encode {w : Word} {i : Instr} (h : encode i = w) :
    decodeWith .loose w = some i :=
  decodeWith_eq_some_iff.mpr ⟨h, wellFormed_loose i⟩

/-- STRICT and LOOSE agree on a word that only instructions with free digit 0 have. -/
theorem decodeWith_loose_eq_strict {w : Word} (h : ∀ i, encode i = w → i.freeDigit = 0#4) :
    decodeWith .loose w = decodeWith .strict w := by
  ext i
  simp only [decodeWith_eq_some_iff, wellFormed_loose, and_true]
  exact ⟨fun hw => ⟨hw, wellFormed_of_freeDigit (h i hw) .strict⟩, And.left⟩

/-- Only the words of the 0, 5 and 9 groups have a free digit. -/
theorem freeDigit_eq_zero_of_encode {w : Word} (hcls : ¬ w &&& 0xF0FF#16 = 0x00E0#16)
    (hret : ¬ w &&& 0xF0FF#16 = 0x00EE#16) (hse : ¬ w &&& 0xF000#16 = 0x5000#16)
    (hsne : ¬ w &&& 0xF000#16 = 0x9000#16) (i : Instr) (hw : encode i = w) :
    i.freeDigit = 0#4 := by
  subst hw
  cases i with
  | cls d => exact absurd ((and_F0FF_eq_iff _ 0x0#4 0xE0#8).mpr ⟨fieldH_xnn .., fieldNN_xnn ..⟩) hcls
  | ret d => exact absurd ((and_F0FF_eq_iff _ 0x0#4 0xEE#8).mpr ⟨fieldH_xnn .., fieldNN_xnn ..⟩) hret
  | seReg x y n => exact absurd ((and_F000_eq_iff _ 0x5#4).mpr (fieldH_xyn ..)) hse
  | sneReg x y n => exact absurd ((and_F000_eq_iff _ 0x9#4).mpr (fieldH_xyn ..)) hsne
  | _ => rfl

/-- Settles O4: each of the four masked forms is the word of its instruction, and any other word has
no free digit. -/
theorem looseOpcodeMap : Obligations.LooseOpcodeMap := by
  unfold Obligations.LooseOpcodeMap
  intro w
  split_ifs with hcls hret hse hsne
  · obtain ⟨hh, hnn⟩ := (and_F0FF_eq_iff w 0x0#4 0xE0#8).mp hcls
    exact decodeWith_loose_of_encode (word_of_xnn hh rfl hnn)
  · obtain ⟨hh, hnn⟩ := (and_F0FF_eq_iff w 0x0#4 0xEE#8).mp hret
    exact decodeWith_loose_of_encode (word_of_xnn hh rfl hnn)
  · have hh : fieldH w = 0x5#4 := (and_F000_eq_iff w 0x5#4).mp hse
    exact decodeWith_loose_of_encode (word_of_xyn hh rfl rfl rfl)
  · have hh : fieldH w = 0x9#4 := (and_F000_eq_iff w 0x9#4).mp hsne
    exact decodeWith_loose_of_encode (word_of_xyn hh rfl rfl rfl)
  · exact decodeWith_loose_eq_strict (freeDigit_eq_zero_of_encode hcls hret hse hsne)

/-! ### The opcode map under STRICT (R95) -/

/-- The row a word decodes to under STRICT. -/
def strictRow (w : Word) : Option OpcodeRow := (decodeWith .strict w).map Instr.row

/-- Outside the groups 0, 5, 8, 9, E and F the digit h alone selects the row. -/
theorem strictRow_congr_h {w w' : Word} {h : Nibble} (hw : fieldH w = h) (hw' : fieldH w' = h)
    (hgroup : h ∉ [0x0#4, 0x5#4, 0x8#4, 0x9#4, 0xE#4, 0xF#4]) : strictRow w = strictRow w' := by
  unfold strictRow decodeWith
  rw [hw, hw']
  clear hw hw'
  split
  case h_1 | h_6 | h_9 | h_10 | h_15 | h_16 => exact absurd (by decide) hgroup
  all_goals rfl

theorem fixedDigit_map_row (n : Nibble) {i j : Instr} (h : i.row = j.row) :
    (fixedDigit .strict n i).map Instr.row = (fixedDigit .strict n j).map Instr.row := by
  unfold fixedDigit
  split
  · exact congrArg some h
  · rfl

/-- In the groups 5, 8 and 9 the digits h and n select the row. -/
theorem strictRow_congr_hn {w w' : Word} {h : Nibble} (hw : fieldH w = h) (hw' : fieldH w' = h)
    (hgroup : h ∈ [0x5#4, 0x8#4, 0x9#4]) (hn : fieldN w = fieldN w') :
    strictRow w = strictRow w' := by
  simp only [List.mem_cons, List.not_mem_nil, or_false] at hgroup
  unfold strictRow decodeWith
  rw [hw, hw', hn]
  obtain rfl | rfl | rfl := hgroup
  · exact fixedDigit_map_row _ rfl
  · change (decodeGroup8 w).map _ = (decodeGroup8 w').map _
    unfold decodeGroup8
    rw [hn]
    split <;> rfl
  · exact fixedDigit_map_row _ rfl

/-- In the groups E and F the fields h and nn select the row. -/
theorem strictRow_congr_hnn {w w' : Word} {h : Nibble} (hw : fieldH w = h) (hw' : fieldH w' = h)
    (hgroup : h ∈ [0xE#4, 0xF#4]) (hnn : fieldNN w = fieldNN w') : strictRow w = strictRow w' := by
  simp only [List.mem_cons, List.not_mem_nil, or_false] at hgroup
  unfold strictRow decodeWith
  rw [hw, hw']
  obtain rfl | rfl := hgroup
  · change (decodeGroupE w).map _ = (decodeGroupE w').map _
    unfold decodeGroupE
    rw [hnn]
    split <;> rfl
  · change (decodeGroupF w).map _ = (decodeGroupF w').map _
    unfold decodeGroupF
    rw [hnn]
    split <;> rfl

/-- The four masks of R95, each with the groups that use it. -/
theorem mask_of_mem_opcodeMap : ∀ r ∈ opcodeMap,
    r.mask = 0xFFFF#16 ∨
    r.mask = 0xF000#16 ∧ fieldH r.bits ∉ [0x0#4, 0x5#4, 0x8#4, 0x9#4, 0xE#4, 0xF#4] ∨
    r.mask = 0xF00F#16 ∧ fieldH r.bits ∈ [0x5#4, 0x8#4, 0x9#4] ∨
    r.mask = 0xF0FF#16 ∧ fieldH r.bits ∈ [0xE#4, 0xF#4] := by decide

/-- Each row's match word, itself a word with x and y 0, decodes to its own row. -/
theorem strictRow_bits : ∀ r ∈ opcodeMap, strictRow r.bits = some r := by decide

/-- A word that matches a row decodes to that row: the mask keeps the fields that select it. -/
theorem strictRow_of_covers {w : Word} {r : OpcodeRow} (hr : r ∈ opcodeMap)
    (hcov : r.covers w = true) : strictRow w = some r := by
  rw [← strictRow_bits r hr]
  have hbits : w &&& r.mask = r.bits := beq_iff_eq.mp hcov
  obtain hm | ⟨hm, hg⟩ | ⟨hm, hg⟩ | ⟨hm, hg⟩ := mask_of_mem_opcodeMap r hr <;> rw [hm] at hbits
  · rw [← hbits]; exact congrArg strictRow (BitVec.and_allOnes).symm
  · rw [and_F000] at hbits
    exact strictRow_congr_h (by rw [← hbits, fieldH_xnn]) rfl hg
  · rw [and_F00F] at hbits
    exact strictRow_congr_hn (by rw [← hbits, fieldH_xyn]) rfl hg (by rw [← hbits, fieldN_xyn])
  · rw [and_F0FF] at hbits
    exact strictRow_congr_hnn (by rw [← hbits, fieldH_xnn]) rfl hg (by rw [← hbits, fieldNN_xnn])

/-- Settles O3: a matched word decodes to its row, so to no second one, and a word that decodes matches
the row of its instruction. -/
theorem decodeFollowsOpcodeMap : Obligations.DecodeFollowsOpcodeMap := by
  unfold Obligations.DecodeFollowsOpcodeMap
  refine ⟨fun w r hr hcov => ?_, fun w hnone => ?_, fun w r r' hr hr' hcov hcov' => ?_⟩
  · exact Option.map_eq_some_iff.mp (strictRow_of_covers hr hcov)
  · rw [Option.eq_none_iff_forall_ne_some]
    intro i hi
    obtain ⟨rfl, hwf⟩ := decodeWith_eq_some_iff.mp hi
    obtain ⟨hmem, hcov⟩ := Laws.EncodeFitsRow.all i
    exact Bool.false_ne_true ((hnone _ hmem).symm.trans (hcov hwf))
  · exact Option.some.inj ((strictRow_of_covers hr hcov).symm.trans (strictRow_of_covers hr' hcov'))

end Sys2Proof

namespace Sys2Proof.Machine

/-- Settles O8: the fetch succeeds and the decoder answers nothing, which leaves the advance. -/
theorem unmatchedWordAdvances : Obligations.UnmatchedWordAdvances := by
  unfold Obligations.UnmatchedWordAdvances
  exact fun s hfault hpc hnone => step_of_unmatched hfault (fetch_of_le hpc) hnone

end Sys2Proof.Machine

/-!
SUPPORT. The step (spec/40_step.md R122 to R129): the word at PC is what runs, a fault changes
nothing but FAULT, and neither a halted core nor a waiting one is changed by a step.
-/

namespace Sys2Proof.Machine

/-! ### The word at PC runs -/

/-- Settles O6: the fetch gives the two bytes at PC. -/
theorem stepRunsDecodedInstruction : Obligations.StepRunsDecodedInstruction := by
  unfold Obligations.StepRunsDecodedInstruction
  exact fun s i hfault hpc hdecode => step_of_decode hfault (fetch_of_le hpc) hdecode

/-- The table's reader, which goes through the two bytes of a word, is the decoder. -/
theorem decodeTableWord_toNat (w : Word) : decodeTableWord 16 w.toNat = decode w := by
  unfold decodeTableWord decode
  rw [Nat.mod_eq_of_lt w.isLt, BitVec.ofNat_toNat, BitVec.setWidth_eq]
  simp only [bytesOfWord, decodeBytesWith, wordOfBytes_bytes]
  cases decodeWith decodeMode w <;> rfl

theorem decode_encode {i : Instr} (h : i.wellFormed decodeMode = true) :
    decode (encode i) = some i :=
  decodeWith_eq_some_iff.mpr ⟨rfl, h⟩

/-- A core with no fault runs the well-formed instruction whose word is at PC. -/
theorem step_of_fetch_encode {s : State} {i : Instr} (hfault : s.fault = none)
    (hfetch : fetch s = some (encode i)) (hwf : i.wellFormed decodeMode = true) :
    step s = exec i s :=
  step_of_decode hfault hfetch (decode_encode hwf)

/-- Settles O7: the placed word is the one fetched, and the decoder inverts the encoder. -/
theorem placedWordRuns : Obligations.PlacedWordRuns := by
  unfold Obligations.PlacedWordRuns
  intro s i hpc hwf
  exact ⟨(decodeTableWord_toNat _).trans (decode_encode hwf),
    step_of_fetch_encode rfl (fetch_withFetchWord s _ hpc) hwf⟩

/-! ### Faults and the halted core -/

/-- Settles O10: of the ways a step answers, only a failed fetch and a faulting instruction latch a
fault, and the instruction's word is the one fetched. -/
theorem faultsArePrecise : Obligations.FaultsArePrecise := by
  unfold Obligations.FaultsArePrecise
  intro s t hfault hstep ht
  obtain ⟨hne, -⟩ | ⟨-, hpc, rfl⟩ | ⟨-, -, w, hfetch, hrun⟩ := step_cases hstep
  · exact absurd hfault hne
  · exact ⟨.memoryOutOfBounds, by rw [fetch_of_gt hpc]⟩
  · obtain ⟨-, rfl⟩ | ⟨i, hdecode, hexec⟩ := hrun
    · exact absurd hfault ht
    · obtain ⟨kind, -, rfl⟩ | ⟨-, hkept, -⟩ := exec_cases hexec
      · exact ⟨kind, by rw [hfetch, encode_of_decodeWith hdecode]⟩
      · exact absurd (hkept.trans hfault) ht

/-- A Tick of a halted core does nothing (spec/60_exceptions.md R286). -/
theorem tick_of_fault {s : State} (h : s.fault ≠ none) : tick s = s := by
  obtain ⟨r, hr⟩ := Option.ne_none_iff_exists'.mp h
  simp only [tick, hr]

/-- Settles O12, transaction by transaction: a key event writes KEY, a Load would need a fresh run,
which has no fault, and all others leave the core. -/
theorem haltedCoreIsStill : Obligations.HaltedCoreIsStill := by
  unfold Obligations.HaltedCoreIsStill
  refine ⟨fun s => step_of_fault, ?_⟩
  rintro z z' tr resp ⟨-, hfresh⟩ hfault hreset happly
  cases tr with
  | reset => exact absurd rfl hreset
  | load rom =>
    obtain ⟨hstage, -⟩ := load_next happly
    exact absurd (hfresh hstage) hfault
  | step =>
    obtain ⟨t, hstep, rfl⟩ := sessionStep_next happly
    rw [step_of_fault hfault] at hstep
    cases hstep
    exact ⟨rfl, fun _ => rfl⟩
  | tick =>
    cases happly
    rw [tick_of_fault hfault]
    exact ⟨rfl, fun _ => rfl⟩
  | keyDown k => cases happly; exact ⟨rfl, fun h => absurd rfl (h k).1⟩
  | keyUp k => cases happly; exact ⟨rfl, fun h => absurd rfl (h k).2⟩
  | readFB | readSound | readFault => cases happly; exact ⟨rfl, fun _ => rfl⟩

/-! ### Idle and KeyWait -/

/-- A jump to where PC is changes nothing. -/
theorem exec_jp_self {nnn : Addr12} {s : State} (h : zextAddr nnn = s.pc) :
    exec (.jp nnn) s = .next s := by
  change Host.Outcome.next { s with pc := zextAddr nnn } = _
  rw [h]

/-- Fx0A with no key pressed takes its advance back. -/
theorem exec_ldVxK_of_no_key (x : Reg) {s : State} (h : ∀ k, s.getKey k = false) :
    exec (.ldVxK x) s = .next s := by
  simp only [exec, execLdVxK, firstPressed_eq_none.mpr h, rewind_advance]

theorem step_of_idle {s : State} (h : Idle s) : step s = .next s := by
  obtain ⟨hfault, hpc, hfetch⟩ := h
  have hself : zextAddr (s.pc.setWidth 12) = s.pc := setWidth_low s.pc (by omega)
  have hword : 0x1000#16 ||| zextAddr (s.pc.setWidth 12) = encode (.jp (s.pc.setWidth 12)) :=
    jumpWord_eq _
  rw [hself] at hword
  rw [step_of_fetch_encode hfault (hfetch.trans (congrArg some hword))
    (wellFormed_of_freeDigit rfl _), exec_jp_self hself]

theorem step_of_keyWait {s : State} (h : KeyWait s) : step s = .next s := by
  obtain ⟨hfault, -, ⟨x, hfetch⟩, hkeys⟩ := h
  rw [step_of_fetch_encode (i := .ldVxK x) hfault hfetch (wellFormed_of_freeDigit rfl _),
    exec_ldVxK_of_no_key x hkeys]

/-- Settles O58: in Idle the word is a jump to PC, in KeyWait an Fx0A that goes back to PC. -/
theorem waitingStepsChangeNothing : Obligations.WaitingStepsChangeNothing := by
  unfold Obligations.WaitingStepsChangeNothing
  exact fun s h => h.elim step_of_idle step_of_keyWait

end Sys2Proof.Machine

/-!
SUPPORT. Idle under a fair schedule (spec/40_step.md R129, spec/70_reset_and_hazards.md R333):
Steps do nothing, so the run has made its Ticks and no more, and 255 Ticks empty any timer.
-/

namespace Sys2Proof.Machine

/-! ### Ticks in a row -/

theorem tick_of_no_fault {s : State} (h : s.fault = none) :
    tick s = { s with dt := countDown s.dt, st := countDown s.st } := by
  simp only [tick, h]

/-- `k` Ticks of a core with no fault count both timers down `k` times and change nothing else. -/
theorem ticks_eq (k : Nat) {s : State} (h : s.fault = none) :
    ticks k s = { s with dt := countDown^[k] s.dt, st := countDown^[k] s.st } := by
  induction k generalizing s with
  | zero => rfl
  | succ k ih =>
    rw [ticks, ih ((tick_fault s).trans h), tick_of_no_fault h]
    rfl

theorem iterate_countDown_toNat (k : Nat) (b : Byte) :
    (countDown^[k] b).toNat = b.toNat - k := by
  induction k generalizing b with
  | zero => rfl
  | succ k ih => rw [Function.iterate_succ_apply, ih, countDown_toNat]; omega

/-- 255 Ticks or more empty a timer, whatever it holds. -/
theorem iterate_countDown_eq_zero {k : Nat} (hk : 255 ≤ k) (b : Byte) :
    countDown^[k] b = 0#8 := by
  have hb : b.toNat < 256 := b.isLt
  apply BitVec.eq_of_toNat_eq
  rw [iterate_countDown_toNat]
  exact Nat.sub_eq_zero_of_le (by omega)

/-! ### The run in Idle -/

/-- Idle looks at FAULT, PC and memory alone, which a Tick leaves. -/
theorem idle_tick {s : State} (h : Idle s) : Idle (tick s) := by
  rw [tick_eq]
  exact h

/-- A run of Steps and Ticks from Idle comes to where its Ticks alone lead. -/
theorem run_of_idle {trs : List Transaction} (htrs : ∀ tr ∈ trs, tr = .step ∨ tr = .tick)
    {s : State} (h : Idle s) :
    Session.run ⟨.started, s⟩ trs = some ⟨.started, ticks (trs.count .tick) s⟩ := by
  induction trs generalizing s with
  | nil => rfl
  | cons tr trs ih =>
    obtain ⟨htr, hrest⟩ := List.forall_mem_cons.mp htrs
    obtain rfl | rfl := htr
    · have hstep : Session.apply ⟨.started, s⟩ .step = .next (.done, ⟨.started, s⟩) :=
        sessionStep_of_next (step_of_idle h)
      rw [List.count_cons_of_ne (by decide), Session.run, hstep]
      exact ih hrest h
    · rw [List.count_cons_self]
      exact ih hrest (idle_tick h)

/-! ### Fairness -/

/-- A fair schedule makes any number of Ticks. -/
theorem exists_le_count_tick {sched : Nat → Transaction} (h : FairSchedule sched) (k : Nat) :
    ∃ n, k ≤ ((List.range n).map sched).count .tick := by
  induction k with
  | zero => exact ⟨0, Nat.zero_le _⟩
  | succ k ih =>
    obtain ⟨n, hn⟩ := ih
    obtain ⟨-, m, hnm, hm⟩ := h n
    have hmono : ((List.range n).map sched).count .tick ≤ ((List.range m).map sched).count .tick :=
      ((List.range_sublist.mpr hnm).map sched).count_le _
    refine ⟨m + 1, ?_⟩
    rw [List.range_succ, List.map_append, List.count_append, List.map_singleton, hm,
      List.count_singleton_self]
    omega

/-- Settles O59: wait for 255 Ticks. -/
theorem idleTimersRunOut : Obligations.IdleTimersRunOut := by
  unfold Obligations.IdleTimersRunOut
  intro s sched hidle hfair honly
  obtain ⟨n, hn⟩ := exists_le_count_tick hfair 255
  refine ⟨n, _, run_of_idle (List.forall_mem_map.mpr fun m _ => honly m) hidle, ?_⟩
  obtain ⟨hfault, -, -⟩ := hidle
  rw [ticks_eq _ hfault]
  exact ⟨iterate_countDown_eq_zero hn _, iterate_countDown_eq_zero hn _, rfl, hfault⟩

end Sys2Proof.Machine

/-!
SUPPORT. Control transfer and skips (spec/41_flow.md): CALL and RET at each depth of the stack, the
two jumps, and the four skips.
-/

namespace Sys2Proof.Machine

open Sys2Proof.Certificates

/-! ### CALL and RET -/

/-- A depth in use grows by one without wrapping. -/
theorem toNat_add_one_of_depth {sp : Byte} {k : Fin 16} (h : sp.toNat = k.val) :
    (sp + 1#8).toNat = k.val + 1 := by
  bv_omega

/-- Settles O24: the entry that CALL wrote at the old SP is the one that RET pops. -/
theorem callThenRetReturns : Obligations.CallThenRetReturns := by
  unfold Obligations.CallThenRetReturns
  intro nnn d s hlt
  obtain ⟨k, hk⟩ : ∃ k : Fin 16, s.sp.toNat = k.val := ⟨⟨s.sp.toNat, hlt⟩, rfl⟩
  refine ⟨_, execCall_pushes nnn hk, fun u hsp hstack => ?_⟩
  have hdepth : u.sp.toNat = k.val + 1 := by rw [hsp, toNat_add_one_of_depth hk]
  refine ⟨_, execRet_pops d hdepth, ?_, ?_⟩
  · simp only [hstack, Fin.getElem_fin, Vector.getElem_set_self]
  · simp only [hsp, BitVec.add_sub_cancel]

/-- Settles O22: RET pops where an entry is in use (`execRet_pops`) and faults where none is
(`execRet_empty`). -/
theorem retPops : Obligations.RetPops := by
  unfold Obligations.RetPops
  intro d s
  refine ⟨fun hd => reads_of_encode rfl hd, decodeWith_loose_of_encode rfl, fun k hk => ?_,
    execRet_empty d⟩
  exact ⟨_, execRet_pops d hk, by bv_omega, rfl, rfl⟩

/-- Settles O23: CALL pushes where an entry is free (`execCall_pushes`) and faults where none is
(`execCall_full`). -/
theorem callPushes : Obligations.CallPushes := by
  unfold Obligations.CallPushes
  intro nnn s
  refine ⟨reads_of_encode rfl rfl, fun k hk => ?_, execCall_full nnn⟩
  refine ⟨_, execCall_pushes nnn hk, toNat_add_one_of_depth hk, rfl, fun j => ?_⟩
  simp only [Fin.getElem_fin, Vector.getElem_set, Fin.ext_iff, eq_comm]

/-! ### Jumps -/

/-- Settles O25: both jumps write PC alone, and the sum of Bnnn is exact. -/
theorem jumpsSetPc : Obligations.JumpsSetPc := by
  unfold Obligations.JumpsSetPc
  intro nnn s
  refine ⟨reads_of_encode rfl rfl, reads_of_encode rfl rfl, ⟨_, rfl, rfl, rfl⟩, ?_⟩
  exact ⟨_, rfl, zextAddr_add_zextByte_toNat nnn _, rfl⟩

/-! ### Skips -/

/-- A skip on equality of two bytes: two bytes further where they agree, and VF as it was. -/
theorem skipIf_beq (p q : Byte) (s : State) :
    ∃ t, skipIf (p == q) s = .next t ∧ t.getV vF = s.getV vF ∧
      t.pc = if p = q then s.pc + 4#16 else s.pc + 2#16 :=
  ⟨_, skipIf_next _ s, rfl, if_congr beq_iff_eq rfl rfl⟩

/-- A skip on inequality of two bytes: two bytes further where they differ, and VF as it was. -/
theorem skipIf_bne (p q : Byte) (s : State) :
    ∃ t, skipIf (p != q) s = .next t ∧ t.getV vF = s.getV vF ∧
      t.pc = if p = q then s.pc + 2#16 else s.pc + 4#16 :=
  ⟨_, skipIf_next _ s, rfl, (if_congr bne_iff_ne rfl rfl).trans (ite_not ..)⟩

/-- Settles O26: SE skips on equality of Vx and nn, SNE on inequality. -/
theorem byteSkips : Obligations.ByteSkips := by
  unfold Obligations.ByteSkips
  exact fun _ _ s => ⟨reads_of_encode rfl rfl, reads_of_encode rfl rfl, skipIf_beq _ _ s,
    skipIf_bne _ _ s⟩

/-- STRICT reads no instruction from the word of one whose free digit is not 0. -/
theorem decodeWith_strict_of_encode {w : Word} {i : Instr} (hw : encode i = w)
    (hd : i.freeDigit ≠ 0#4) : decodeWith .strict w = none := by
  rw [← hw, decodeWith_encode, fixedDigit_strict _ _ hd]

/-- Settles O27: the digit n is the free digit of both instructions; SE skips on equality of Vx and Vy,
SNE on inequality. -/
theorem registerSkips : Obligations.RegisterSkips := by
  unfold Obligations.RegisterSkips
  intro x y n s
  refine ⟨reads_of_encode rfl rfl, reads_of_encode rfl rfl, decodeWith_loose_of_encode rfl,
    decodeWith_loose_of_encode rfl, fun hn => ?_, skipIf_beq _ _ s, skipIf_bne _ _ s⟩
  exact ⟨decodeWith_strict_of_encode (i := .seReg x y n) rfl hn,
    decodeWith_strict_of_encode (i := .sneReg x y n) rfl hn⟩

end Sys2Proof.Machine

/-!
SUPPORT. Loads, arithmetic, logic, shifts and random (spec/42_alu.md): the operand reads under each
value of P_ALU_READ, the flags, the two writes of a subtraction or shift, and the subtraction that
SUB and SUBN share.
-/

namespace Sys2Proof.Machine

open Sys2Proof.Certificates

/-! ### Operand reads and flags -/

theorem secondRead_latched (x : Reg) (vx f : Byte) : secondRead .latched x vx f = vx :=
  ite_self _

theorem secondRead_sequential_vF (vx f : Byte) : secondRead .sequential vF vx f = f := rfl

/-- P_ALU_READ is looked at for VF alone. -/
theorem secondRead_of_ne {x : Reg} (h : x ≠ vF) (m : AluRead) (vx f : Byte) :
    secondRead m x vx f = vx := if_neg h

theorem flagByte_decide (p : Prop) [Decidable p] : flagByte (decide p) = if p then 1#8 else 0#8 :=
  if_congr decide_eq_true_iff rfl rfl

theorem carryFlag_eq (p q : Byte) :
    carryFlag p q = if p.toNat + q.toNat > 255 then 1#8 else 0#8 := flagByte_decide _

theorem notBorrowFlag_eq (p q : Byte) :
    notBorrowFlag p q = if q.toNat ≤ p.toNat then 1#8 else 0#8 := flagByte_decide _

/-- SEQUENTIAL 8Fy6: a logical shift right of the bit that 8xy6 shifts out leaves nothing. -/
theorem shrFlag_ushiftRight_one (b : Byte) : shrFlag b >>> 1 = 0#8 := by
  revert b; decide

/-- SEQUENTIAL 8FyE: the bit that 8xyE shifts out, shifted left. -/
theorem shlFlag_shiftLeft_one_toNat (b : Byte) : (shlFlag b <<< 1).toNat = b.toNat / 128 * 2 := by
  revert b; decide

theorem ushiftRight_one_toNat (b : Byte) : (b >>> 1).toNat = b.toNat / 2 := by
  rw [BitVec.toNat_ushiftRight, Nat.shiftRight_eq_div_pow, pow_one]

theorem shiftLeft_one_toNat (b : Byte) : (b <<< 1).toNat = b.toNat * 2 % 256 := by
  rw [BitVec.toNat_shiftLeft, Nat.shiftLeft_eq, pow_one]

theorem sub_toNat_byte (p q : Byte) : (p - q).toNat = (p.toNat + 256 - q.toNat) % 256 := by
  bv_omega

/-! ### The two writes of a subtraction or shift -/

/-- Everything `flagThenResult` does (R170): the flag goes to VF, then the result to V[x], and
nothing but V and PC changes. -/
theorem flagThenResult_next (x : Reg) (f b : Byte) (s : State) :
    ∃ t, flagThenResult x f b s = .next t ∧ t.pc = s.pc + 2#16 ∧ Keeps [.v] s t ∧
      t.getV x = b ∧ (x ≠ vF → t.getV vF = f) ∧
      ∀ r, r ≠ x → r ≠ vF → t.getV r = s.getV r := by
  refine ⟨_, rfl, rfl, by simp [Keeps], getV_setV_self _ _ _, fun hx => ?_, fun r hr hf => ?_⟩
  · rw [getV_flagThenResult, if_neg hx.symm, if_pos rfl]
  · rw [getV_flagThenResult, if_neg hr, if_neg hf]

/-- V[x] <- V[p] - V[q] with VF = no borrow, under a value of P_ALU_READ: SUB with p = x and q = y,
SUBN with p = y and q = x. -/
def subtractInto (m : AluRead) (x p q : Reg) (s : State) : Result :=
  let f := notBorrowFlag (s.getV p) (s.getV q)
  flagThenResult x f (secondRead m p (s.getV p) f - secondRead m q (s.getV q) f) s

theorem execSubWith_eq (m : AluRead) (x y : Reg) (s : State) :
    execSubWith m x y s = subtractInto m x x y s := rfl

theorem execSubnWith_eq (m : AluRead) (x y : Reg) (s : State) :
    execSubnWith m x y s = subtractInto m x y x s := rfl

/-- The two readings of a subtraction (R170): LATCHED subtracts the values before the instruction,
SEQUENTIAL reads the new flag where an operand is VF. -/
theorem subtractInto_readings (x p q : Reg) (s : State) :
    ∃ t u, subtractInto .latched x p q s = .next t ∧
      subtractInto .sequential x p q s = .next u ∧
      t.getV x = s.getV p - s.getV q ∧
      u.getV x = secondRead .sequential p (s.getV p) (notBorrowFlag (s.getV p) (s.getV q)) -
        secondRead .sequential q (s.getV q) (notBorrowFlag (s.getV p) (s.getV q)) ∧
      (x ≠ vF → t.getV vF = notBorrowFlag (s.getV p) (s.getV q) ∧ u.getV vF = t.getV vF) := by
  obtain ⟨t, ht, -, -, htx, htf, -⟩ := flagThenResult_next x _ _ s
  obtain ⟨u, hu, -, -, hux, huf, -⟩ := flagThenResult_next x _ _ s
  refine ⟨t, u, ht, hu, ?_, hux, fun hx => ⟨htf hx, (huf hx).trans (htf hx).symm⟩⟩
  rw [htx, secondRead_latched, secondRead_latched]

/-- A register minus itself is 0 under both values of P_ALU_READ. -/
theorem subtractInto_self (m : AluRead) (x p : Reg) (s : State) :
    ∃ t, subtractInto m x p p s = .next t ∧ t.getV x = 0#8 := by
  obtain ⟨t, ht, -, -, htx, -, -⟩ := flagThenResult_next x _ _ s
  exact ⟨t, ht, htx.trans (BitVec.sub_self _)⟩

/-- A subtraction with VF no operand does not depend on P_ALU_READ. -/
theorem subtractInto_of_ne {p q : Reg} (hp : p ≠ vF) (hq : q ≠ vF) (m : AluRead) (x : Reg)
    (s : State) : subtractInto m x p q s = subtractInto .latched x p q s := by
  simp only [subtractInto, secondRead_of_ne hp, secondRead_of_ne hq]

/-- A subtraction under either value of P_ALU_READ: the frame, the flag where VF is not the
destination, and the difference where it is no operand. -/
theorem subtractInto_next (m : AluRead) (x p q : Reg) (s : State) :
    ∃ t, subtractInto m x p q s = .next t ∧ t.pc = s.pc + 2#16 ∧ Keeps [.v] s t ∧
      (x ≠ vF → t.getV vF = if (s.getV q).toNat ≤ (s.getV p).toNat then 1#8 else 0#8) ∧
      (p ≠ vF → q ≠ vF →
        (t.getV x).toNat = ((s.getV p).toNat + 256 - (s.getV q).toNat) % 256) ∧
      ∀ r, r ≠ x → r ≠ vF → t.getV r = s.getV r := by
  obtain ⟨t, ht, hpc, hkeeps, hres, hflag, hregs⟩ := flagThenResult_next x _ _ s
  refine ⟨t, ht, hpc, hkeeps, fun hx => (hflag hx).trans (notBorrowFlag_eq _ _), fun hp hq => ?_,
    hregs⟩
  rw [hres, secondRead_of_ne hp, secondRead_of_ne hq, sub_toNat_byte]

/-! ### The table of P_ALU_READ -/

/-- Settles O33: the rows are the readings of one subtraction with VF as destination, minuend or
subtrahend, and the two readings of each shift. -/
theorem aluReadTable : Obligations.AluReadTable := by
  unfold Obligations.AluReadTable
  simp only [execSubWith_eq, execSubnWith_eq]
  refine ⟨fun y s hy => ?_, fun x s hx => ?_, fun y s hy => ?_, fun x s hx => ?_, fun m s => ?_,
    fun s => ?_, fun s => ?_, fun m x y s hx hy => ?_, fun x y s => ⟨rfl, rfl, rfl, rfl⟩⟩
  · obtain ⟨t, u, ht, hu, htx, hux, -⟩ := subtractInto_readings vF vF y s
    rw [secondRead_sequential_vF, secondRead_of_ne hy, notBorrowFlag_eq] at hux
    exact ⟨t, u, ht, hu, htx, hux⟩
  · obtain ⟨t, u, ht, hu, htx, hux, hflag⟩ := subtractInto_readings x x vF s
    simp only [secondRead_sequential_vF, secondRead_of_ne hx, notBorrowFlag_eq] at hux hflag
    exact ⟨t, u, ht, hu, htx, hux, hflag hx⟩
  · obtain ⟨t, u, ht, hu, htx, hux, -⟩ := subtractInto_readings vF y vF s
    rw [secondRead_sequential_vF, secondRead_of_ne hy, notBorrowFlag_eq] at hux
    exact ⟨t, u, ht, hu, htx, hux⟩
  · obtain ⟨t, u, ht, hu, htx, hux, hflag⟩ := subtractInto_readings x vF x s
    simp only [secondRead_sequential_vF, secondRead_of_ne hx, notBorrowFlag_eq] at hux hflag
    exact ⟨t, u, ht, hu, htx, hux, hflag hx⟩
  · obtain ⟨t, ht, htx⟩ := subtractInto_self m vF vF s
    exact ⟨t, t, ht, ht, htx, htx⟩
  · refine ⟨_, _, rfl, rfl, ?_, ?_⟩
    · rw [getV_setV_self, secondRead_latched, ushiftRight_one_toNat]
    · rw [getV_setV_self, secondRead_sequential_vF, shrFlag_ushiftRight_one]
  · refine ⟨_, _, rfl, rfl, ?_, ?_⟩
    · rw [getV_setV_self, secondRead_latched, shiftLeft_one_toNat]
    · rw [getV_setV_self, secondRead_sequential_vF, shlFlag_shiftLeft_one_toNat]
  · refine ⟨subtractInto_of_ne hx hy m x s, subtractInto_of_ne hy hx m x s, ?_, ?_⟩
    · simp only [execShrWith, secondRead_of_ne hx]
    · simp only [execShlWith, secondRead_of_ne hx]

/-! ### SUB, SUBN and the shifts where VF is no operand -/

/-- Settles O31: SUB is the subtraction Vx - Vy, SUBN is Vy - Vx. -/
theorem subtractsWithNotBorrow : Obligations.SubtractsWithNotBorrow := by
  unfold Obligations.SubtractsWithNotBorrow
  intro x y s
  have hsub : exec (.sub x y) s = subtractInto aluReadMode x x y s := execSubWith_eq _ x y s
  have hsubn : exec (.subn x y) s = subtractInto aluReadMode x y x s := execSubnWith_eq _ x y s
  rw [hsub, hsubn]
  refine ⟨reads_of_encode rfl rfl, reads_of_encode rfl rfl, subtractInto_next _ x x y s, ?_⟩
  obtain ⟨t, ht, hpc, hkeeps, hflag, hdiff, hregs⟩ := subtractInto_next aluReadMode x y x s
  exact ⟨t, ht, hpc, hkeeps, hflag, fun hx hy => hdiff hy hx, hregs⟩

/-- Settles O32: both shifts write the bit shifted out and then the shifted value. -/
theorem shiftsByOne : Obligations.ShiftsByOne := by
  unfold Obligations.ShiftsByOne
  intro x y s
  refine ⟨reads_of_encode rfl rfl, reads_of_encode rfl rfl, ?_, ?_⟩
  · obtain ⟨t, ht, hpc, hkeeps, hres, hflag, hregs⟩ := flagThenResult_next x _ _ s
    refine ⟨t, ht, hpc, hkeeps, fun hx => ⟨?_, ?_⟩, hregs⟩
    · rw [hflag hx, shrFlag_toNat]
    · rw [hres, secondRead_of_ne hx, ushiftRight_one_toNat]
  · obtain ⟨t, ht, hpc, hkeeps, hres, hflag, hregs⟩ := flagThenResult_next x _ _ s
    refine ⟨t, ht, hpc, hkeeps, fun hx => ⟨?_, ?_⟩, hregs⟩
    · rw [hflag hx, shlFlag_toNat]
    · rw [hres, secondRead_of_ne hx, shiftLeft_one_toNat]

/-! ### One register write -/

/-- An instruction whose one write is V[x] keeps VF where x is another register. -/
theorem getV_vF_advance_setV {x : Reg} (h : x ≠ vF) (s : State) (b : Byte) :
    (s.advance.setV x b).getV vF = s.getV vF := getV_setV_of_ne h.symm _ _

/-- Settles O28: each is one write of V[x]. -/
theorem plainRegisterWrites : Obligations.PlainRegisterWrites := by
  unfold Obligations.PlainRegisterWrites
  intro x y nn s
  refine ⟨reads_of_encode rfl rfl, reads_of_encode rfl rfl, reads_of_encode rfl rfl,
    ⟨_, rfl, rfl, getV_setV_self _ _ _, fun hx => getV_vF_advance_setV hx s _⟩,
    ⟨_, rfl, rfl, ?_, fun hx => getV_vF_advance_setV hx s _⟩,
    ⟨_, rfl, rfl, getV_setV_self _ _ _, fun hx => getV_vF_advance_setV hx s _⟩⟩
  rw [getV_setV_self, BitVec.toNat_add]

/-- Settles O29: each is one write of V[x], whose bits are the operation of the operands' bits. -/
theorem bitwiseLogic : Obligations.BitwiseLogic := by
  unfold Obligations.BitwiseLogic
  intro x y s
  refine ⟨reads_of_encode rfl rfl, reads_of_encode rfl rfl, reads_of_encode rfl rfl,
    ⟨_, rfl, rfl, fun k => ?_, fun hx => getV_vF_advance_setV hx s _⟩,
    ⟨_, rfl, rfl, fun k => ?_, fun hx => getV_vF_advance_setV hx s _⟩,
    ⟨_, rfl, rfl, fun k => ?_, fun hx => getV_vF_advance_setV hx s _⟩⟩
  · rw [getV_setV_self, BitVec.getLsbD_or]
  · rw [getV_setV_self, BitVec.getLsbD_and]
  · rw [getV_setV_self, BitVec.getLsbD_xor]

/-- Settles O34: RND is one write of V[x] and one draw consumed. -/
theorem randomMasked : Obligations.RandomMasked := by
  unfold Obligations.RandomMasked
  intro x nn s
  obtain ⟨hkeeps, -, -⟩ := instructionFrames (.rnd x nn) s _ rfl
  exact ⟨reads_of_encode rfl rfl, _, rfl, rfl, hkeeps, rfl, fun r => getV_setV _ _ _ _⟩

/-! ### The sum and its carry -/

/-- Settles O30: the carry of the values before is the last write, after the sum's. -/
theorem addWritesSumThenCarry : Obligations.AddWritesSumThenCarry := by
  unfold Obligations.AddWritesSumThenCarry
  intro x y s
  refine ⟨reads_of_encode rfl rfl, _, rfl, rfl, ?_, fun hx => ?_⟩
  · rw [getV_setV_self, carryFlag_eq]
  · rw [getV_setV_of_ne hx, getV_setV_self, BitVec.toNat_add]

end Sys2Proof.Machine

/-!
SUPPORT. The index register and memory transfers (spec/43_index_memory.md): the values I takes, the
decimal digits of a byte, and each of the three transfers on both sides of the top of memory.
-/

namespace Sys2Proof.Machine

open Sys2Proof.Certificates

/-! ### The index register -/

theorem zextByte_toNat (b : Byte) : (zextByte b).toNat = b.toNat :=
  BitVec.toNat_setWidth_of_le (by decide)

/-- The address of a glyph needs no reduction: 255 * 5 is below 65536 (R202). -/
theorem zextByte_mul_five_toNat (b : Byte) : (zextByte b * 5#16).toNat = b.toNat * 5 := by
  have hb : b.toNat < 256 := b.isLt
  rw [BitVec.toNat_mul, zextByte_toNat]
  exact Nat.mod_eq_of_lt (by simp only [BitVec.toNat_ofNat]; omega)

/-- Settles O35: both write I alone, with a value that needs no reduction. -/
theorem indexLoads : Obligations.IndexLoads := by
  unfold Obligations.IndexLoads
  intro nnn x s
  exact ⟨reads_of_encode rfl rfl, reads_of_encode rfl rfl,
    ⟨_, rfl, rfl, zextAddr_toNat nnn, rfl⟩, ⟨_, rfl, rfl, zextByte_mul_five_toNat _, rfl⟩⟩

/-- Settles O36: I is the 16-bit sum, and ADD I may change I alone. -/
theorem indexAddWraps : Obligations.IndexAddWraps := by
  unfold Obligations.IndexAddWraps
  intro x s
  obtain ⟨hkeeps, -, -⟩ := instructionFrames (.addI x) s _ rfl
  refine ⟨reads_of_encode rfl rfl, _, rfl, rfl, hkeeps, ?_⟩
  dsimp only
  rw [BitVec.toNat_add, zextByte_toNat]

/-! ### A transfer inside memory and past its top -/

/-- A store after the advance changes memory and PC alone. -/
theorem keeps_advance_storeBytes (s : State) (a : Nat) (ws : List Byte) :
    Keeps [.mem] s (s.advance.storeBytes a ws) := by
  simp [Keeps]

/-- Register writes after the advance change V and PC alone. -/
theorem keeps_advance_setVs (s : State) (k : Nat) (bs : List Byte) :
    Keeps [.v] s (s.advance.setVs k bs) := by
  simp [Keeps]

/-- Storing bytes that all exist puts the k-th one at `a + k`. -/
theorem byteAt_storeBytes_add {a k : Nat} {ws : List Byte} (ha : a + ws.length ≤ 4096)
    (hk : k < ws.length) (s : State) : (s.storeBytes a ws).byteAt (a + k) = ws[k] := by
  rw [byteAt_storeBytes _ _ _ _ ha, dif_pos (by omega)]
  simp only [Nat.add_sub_cancel_left]

theorem not_inMemory_of_gt {a n : Nat} (hn : n ≠ 0) (h : 4096 < a + n) : ¬ inMemory a n = true := by
  rw [Bool.not_eq_true, inMemory_false_iff]
  exact ⟨hn, h⟩

/-- Fx33 completes where its last byte exists. -/
theorem exec_ldB_of_lt {x : Reg} {s : State} (h : s.ireg.toNat + 2 < 4096) :
    exec (.ldB x) s = .next (s.advance.storeBytes s.ireg.toNat (bcdDigits (s.getV x))) :=
  if_pos ((inMemory_iff _ _).mpr (.inr h))

/-- Fx33 faults where its last byte does not exist. -/
theorem exec_ldB_of_ge {x : Reg} {s : State} (h : 4096 ≤ s.ireg.toNat + 2) :
    exec (.ldB x) s = takeFault .memoryOutOfBounds (.ldB x) s :=
  if_neg (not_inMemory_of_gt (by decide) (Nat.lt_succ_of_le h))

/-- Fx55 faults where its last byte does not exist. -/
theorem exec_storeRegs_of_ge {x : Reg} {s : State} (h : 4096 ≤ s.ireg.toNat + x.toNat) :
    exec (.storeRegs x) s = takeFault .memoryOutOfBounds (.storeRegs x) s :=
  if_neg (not_inMemory_of_gt (Nat.succ_ne_zero _) (Nat.lt_succ_of_le h))

/-- Fx65 faults where its last byte does not exist. -/
theorem exec_loadRegs_of_ge {x : Reg} {s : State} (h : 4096 ≤ s.ireg.toNat + x.toNat) :
    exec (.loadRegs x) s = takeFault .memoryOutOfBounds (.loadRegs x) s :=
  if_neg (not_inMemory_of_gt (Nat.succ_ne_zero _) (Nat.lt_succ_of_le h))

/-! ### Fx33 -/

/-- The middle digit of Fx33 (R203); the outer two are one division each. -/
theorem tens_toNat (b : Byte) : (b / 10#8 % 10#8).toNat = b.toNat / 10 % 10 := by
  rw [BitVec.toNat_umod, BitVec.toNat_udiv]
  rfl

/-- Settles O37: the three digits stand at I, I + 1 and I + 2, where those bytes exist. -/
theorem bcdStored : Obligations.BcdStored := by
  unfold Obligations.BcdStored
  intro x s
  refine ⟨reads_of_encode rfl rfl, fun h => ?_, exec_ldB_of_ge⟩
  have hexec := exec_ldB_of_lt (x := x) h
  have hdigit (k : Nat) (hk : k < 3) :=
    byteAt_storeBytes_add (ws := bcdDigits (s.getV x)) h hk s.advance
  refine ⟨_, hexec, rfl, keeps_advance_storeBytes .., ?_, ?_, ?_, fun a => exec_byteAt hexec⟩
  · exact (congrArg BitVec.toNat (hdigit 0 (by decide))).trans BitVec.toNat_udiv
  · exact (congrArg BitVec.toNat (hdigit 1 (by decide))).trans (tens_toNat _)
  · exact (congrArg BitVec.toNat (hdigit 2 (by decide))).trans BitVec.toNat_umod

/-! ### Fx55 and Fx65 -/

/-- Settles O38: V[k] stands at `I + k` for k up to x, where those bytes exist. -/
theorem registersStored : Obligations.RegistersStored := by
  unfold Obligations.RegistersStored
  intro x s
  refine ⟨reads_of_encode rfl rfl, fun h => ?_, exec_storeRegs_of_ge⟩
  have hexec := exec_storeRegs_of_lt h
  exact ⟨_, hexec, rfl, keeps_advance_storeBytes ..,
    fun k hk => byteAt_storeBytes_firstVs h hk s s.advance, fun a => exec_byteAt hexec⟩

/-- Settles O39: V[k] is loaded from `I + k` for k up to x, where those bytes exist. -/
theorem registersLoaded : Obligations.RegistersLoaded := by
  unfold Obligations.RegistersLoaded
  intro x s
  refine ⟨reads_of_encode rfl rfl, fun h => ?_, exec_loadRegs_of_ge⟩
  refine ⟨_, exec_loadRegs_of_lt h, State.setVs_pc _ _ _, keeps_advance_setVs .., fun k => ?_⟩
  split_ifs with hk
  · exact getV_setVs_bytesAt_of_le hk s.advance s _
  · exact getV_setVs_bytesAt_of_lt (Nat.lt_of_not_le hk) s.advance s _

end Sys2Proof.Machine

/-!
SUPPORT. The display (spec/44_display.md): CLS, the cells and the collision of one DRW and of the same
DRW twice, and the sprite loops as the XOR of whole rows.
-/

namespace Sys2Proof.Machine

open Sys2Proof.Certificates

/-! ### CLS -/

/-- A cleared framebuffer is the one that Reset leaves. -/
theorem cell_clear (px py : Nat) : FrameBuffer.cell FrameBuffer.clear px py = false :=
  cell_reset px py

/-- Settles O42: the cells after CLS are those of a cleared framebuffer, and CLS writes no register. -/
theorem clearsScreen : Obligations.ClearsScreen := by
  unfold Obligations.ClearsScreen
  intro d s
  exact ⟨fun hd => reads_of_encode rfl hd, decodeWith_loose_of_encode rfl,
    ⟨_, rfl, rfl, rfl, fun _ => cell_clear _ _⟩⟩

/-! ### A sprite inside memory and past its top -/

/-- The state that a completed Dxyn answers (R231). -/
def State.afterDraw (x y : Reg) (n : Nibble) (s : State) : State :=
  { s.advance with fb := (drawn x y n s).1 }.setV vF (flagByte (drawn x y n s).2)

/-- Dxyn completes where it reads no byte or its last byte exists. -/
theorem exec_drw_of_lt {x y : Reg} {n : Nibble} {s : State}
    (h : n = 0#4 ∨ s.ireg.toNat + n.toNat - 1 < 4096) :
    exec (.drw x y n) s = .next (s.afterDraw x y n) := by
  refine if_pos ((inMemory_iff _ _).mpr ?_)
  rcases h with rfl | h
  · exact .inl rfl
  · omega

/-- Dxyn faults where it reads a byte and its last byte does not exist. -/
theorem exec_drw_of_ge {x y : Reg} {n : Nibble} {s : State} (hn : n ≠ 0#4)
    (h : 4096 ≤ s.ireg.toNat + n.toNat - 1) :
    exec (.drw x y n) s = takeFault .memoryOutOfBounds (.drw x y n) s := by
  have hpos : n.toNat ≠ 0 := fun h0 => hn (BitVec.eq_of_toNat_eq h0)
  exact if_neg (not_inMemory_of_gt hpos (by omega))

/-! ### The cells and the collision of one sprite -/

/-- The sprite read from memory at I has a 1 over the cells that `spriteOver` names. -/
theorem spriteBit_bytesAt_iff (x y : Reg) (n : Nibble) (s : State) (px py : Nat) :
    spriteBit (startColumn (s.getV x)) (startRow (s.getV y)) (s.bytesAt s.ireg.toNat n.toNat) px py
      = true ↔ spriteOver x y n s px py := by
  simp only [spriteBit_iff, getElem_bytesAt, length_bytesAt, exists_prop, startColumn, startRow,
    spriteOver]

/-- Drawing XORs the sprite's bits into the visible cells. -/
theorem cell_drawn (x y : Reg) (n : Nibble) (s : State) {px py : Nat} (hx : px < 64) (hy : py < 32) :
    FrameBuffer.cell (drawn x y n s).1 px py = (FrameBuffer.cell s.fb px py ^^
      spriteBit (startColumn (s.getV x)) (startRow (s.getV y)) (s.bytesAt s.ireg.toNat n.toNat)
        px py) :=
  (plotRows_spec _ _ _ _).1 px py hx hy

/-- Drawing flips a visible cell under the sprite. -/
theorem cell_drawn_of_over {x y : Reg} {n : Nibble} {s : State} {px py : Nat} (hx : px < 64)
    (hy : py < 32) (h : spriteOver x y n s px py) :
    FrameBuffer.cell (drawn x y n s).1 px py = !FrameBuffer.cell s.fb px py := by
  rw [cell_drawn x y n s hx hy, (spriteBit_bytesAt_iff ..).mpr h, Bool.xor_true]

/-- Drawing leaves a visible cell that is not under the sprite. -/
theorem cell_drawn_of_not_over {x y : Reg} {n : Nibble} {s : State} {px py : Nat} (hx : px < 64)
    (hy : py < 32) (h : ¬ spriteOver x y n s px py) :
    FrameBuffer.cell (drawn x y n s).1 px py = FrameBuffer.cell s.fb px py := by
  rw [← spriteBit_bytesAt_iff, Bool.not_eq_true] at h
  rw [cell_drawn x y n s hx hy, h, Bool.xor_false]

/-- Drawing collides where a visible cell under the sprite is on. -/
theorem drawn_collides_iff (x y : Reg) (n : Nibble) (s : State) :
    (drawn x y n s).2 = true ↔ ∃ px py, px < 64 ∧ py < 32 ∧ spriteOver x y n s px py ∧
      FrameBuffer.cell s.fb px py = true := by
  have hhit := (plotRows_spec (startColumn (s.getV x)) (startRow (s.getV y))
    (s.bytesAt s.ireg.toNat n.toNat) (s.fb, false)).2
  simp only [Bool.false_eq_true, false_or, spriteBit_bytesAt_iff] at hhit
  exact hhit

/-! ### DRW -/

theorem flagByte_eq_zero_or_one (c : Bool) : flagByte c = 0#8 ∨ flagByte c = 1#8 := by
  cases c
  · exact .inl rfl
  · exact .inr rfl

theorem flagByte_eq_one_iff (c : Bool) : flagByte c = 1#8 ↔ c = true := by
  cases c <;> decide

/-- VF after Dxyn is its collision flag, also where x or y is VF (R25). -/
theorem getV_vF_afterDraw (x y : Reg) (n : Nibble) (s : State) :
    (s.afterDraw x y n).getV vF = flagByte (drawn x y n s).2 :=
  getV_setV_self _ _ _

/-- Dxyn writes no register but VF. -/
theorem getV_afterDraw_of_ne {r : Reg} (h : r ≠ vF) (x y : Reg) (n : Nibble) (s : State) :
    (s.afterDraw x y n).getV r = s.getV r :=
  getV_setV_of_ne h _ _

/-- Dxyn, completed, changes V, FB and PC alone. -/
theorem keeps_afterDraw (x y : Reg) (n : Nibble) (s : State) :
    Keeps [.v, .fb] s (s.afterDraw x y n) := by
  refine ⟨fun _ => byteAt_congr rfl, by simp, ?_⟩
  simp [State.afterDraw]

/-- VF after Dxyn is 1 where a visible cell under the sprite was on. -/
theorem getV_vF_afterDraw_eq_one_iff (x y : Reg) (n : Nibble) (s : State) :
    (s.afterDraw x y n).getV vF = 1#8 ↔ ∃ px py, px < 64 ∧ py < 32 ∧ spriteOver x y n s px py ∧
      FrameBuffer.cell s.fb px py = true := by
  rw [getV_vF_afterDraw, flagByte_eq_one_iff, drawn_collides_iff]

/-- Settles O43: the sprite is drawn where its last byte exists (`exec_drw_of_lt`), and where it does
not the fault is taken (`exec_drw_of_ge`). -/
theorem spriteDrawn : Obligations.SpriteDrawn := by
  unfold Obligations.SpriteDrawn
  intro x y n s
  refine ⟨reads_of_encode rfl rfl, fun h => ?_, exec_drw_of_ge⟩
  refine ⟨_, exec_drw_of_lt h, rfl, keeps_afterDraw x y n s, fun px py hx hy =>
    ⟨cell_drawn_of_over hx hy, cell_drawn_of_not_over hx hy⟩, ?_,
    getV_vF_afterDraw_eq_one_iff x y n s, fun r hr => getV_afterDraw_of_ne hr x y n s⟩
  rw [getV_vF_afterDraw]
  exact flagByte_eq_zero_or_one _

/-! ### The same sprite twice (R232) -/

/-- After a draw that does not write its own coordinates the sprite lies over the same cells. -/
theorem spriteOver_afterDraw {x y : Reg} (hx : x ≠ vF) (hy : y ≠ vF) (n : Nibble) (s : State)
    (px py : Nat) : spriteOver x y n (s.afterDraw x y n) px py ↔ spriteOver x y n s px py := by
  unfold spriteOver
  rw [getV_afterDraw_of_ne hx, getV_afterDraw_of_ne hy]
  rfl

/-- The second draw flips back the cells that the first one flipped. -/
theorem fb_afterDraw_afterDraw {x y : Reg} (hx : x ≠ vF) (hy : y ≠ vF) (n : Nibble) (s : State) :
    ((s.afterDraw x y n).afterDraw x y n).fb = s.fb := by
  refine FrameBuffer.ext_cell fun px py hpx hpy => ?_
  have hsame := spriteOver_afterDraw hx hy n s px py
  by_cases hover : spriteOver x y n s px py
  · calc FrameBuffer.cell (drawn x y n (s.afterDraw x y n)).1 px py
      _ = !FrameBuffer.cell (drawn x y n s).1 px py := cell_drawn_of_over hpx hpy (hsame.mpr hover)
      _ = !!FrameBuffer.cell s.fb px py := by rw [cell_drawn_of_over hpx hpy hover]
      _ = FrameBuffer.cell s.fb px py := Bool.not_not _
  · calc FrameBuffer.cell (drawn x y n (s.afterDraw x y n)).1 px py
      _ = FrameBuffer.cell (drawn x y n s).1 px py :=
        cell_drawn_of_not_over hpx hpy (mt hsame.mp hover)
      _ = FrameBuffer.cell s.fb px py := cell_drawn_of_not_over hpx hpy hover

/-- Settles O45: both draws complete since I is not written, and the second collides where the first
turned a cell on. -/
theorem doubleDrawRestores : Obligations.DoubleDrawRestores := by
  unfold Obligations.DoubleDrawRestores
  intro x y n s hx hy h
  refine ⟨_, _, exec_drw_of_lt h, exec_drw_of_lt h, fb_afterDraw_afterDraw hx hy n s, ?_⟩
  rw [getV_vF_afterDraw_eq_one_iff]
  refine exists₂_congr fun px py => and_congr_right fun hpx => and_congr_right fun hpy => ?_
  rw [spriteOver_afterDraw hx hy]
  refine and_congr_right fun hover => ?_
  have hflip : FrameBuffer.cell (s.afterDraw x y n).fb px py = !FrameBuffer.cell s.fb px py :=
    cell_drawn_of_over hpx hpy hover
  rw [hflip, Bool.not_eq_true']

/-! ### The sprite loops by whole rows (R231, R233) -/

/-- The mask's column `px` is the sprite byte's bit drawn there from column `x0`. -/
theorem getMsbD_rowMask (x0 : Nat) (row : Byte) {px : Nat} (hpx : px < 64) :
    (rowMask x0 row).getMsbD px = rowBit x0 row 8 px := by
  unfold rowMask rowBit
  rw [BitVec.getMsbD_ushiftRight, BitVec.getMsbD_shiftLeft, BitVec.getMsbD_setWidth]
  by_cases hle : x0 ≤ px
  · obtain ⟨k, rfl⟩ := Nat.exists_eq_add_of_le hle
    have hk : x0 + k - x0 + 56 + 8 - 64 = k := by omega
    rw [hk, Nat.add_sub_cancel_left, BitVec.getMsbD]
    simp [hpx]
  · simp [hle, Nat.lt_of_not_le hle]

/-- XORing a mask into row `py` flips the cells of that row under the mask. -/
theorem FrameBuffer.cell_set_xor (fb : FrameBuffer) {py : Nat} (hpy : py < 32) (m : BitVec 64)
    (qx : Nat) {qy : Nat} (hqy : qy < 32) :
    FrameBuffer.cell (fb.set py (fb[py] ^^^ m)) qx qy =
      (FrameBuffer.cell fb qx qy ^^ (decide (qy = py) && m.getMsbD qx)) := by
  unfold FrameBuffer.cell
  rw [dif_pos hqy, dif_pos hqy, Vector.getElem_set]
  split_ifs with h
  · subst h
    rw [BitVec.getMsbD_xor, decide_eq_true rfl, Bool.true_and]
  · rw [decide_eq_false (Ne.symm h), Bool.false_and, Bool.xor_false]

/-- A mask meets a row where it covers a visible cell that is on. -/
theorem FrameBuffer.row_and_ne_zero_iff (fb : FrameBuffer) {py : Nat} (hpy : py < 32)
    (m : BitVec 64) : (fb[py] &&& m != 0#64) = true ↔
      ∃ qx, qx < 64 ∧ m.getMsbD qx = true ∧ FrameBuffer.cell fb qx py = true := by
  simp only [FrameBuffer.cell, dif_pos hpy]
  rw [bne_iff_ne, ← not_iff_not, not_not]
  constructor
  · rintro h ⟨qx, hqx, hm, hcell⟩
    have hbit : (fb[py] &&& m).getMsbD qx = true := by rw [BitVec.getMsbD_and, hm, hcell]; rfl
    rw [h, BitVec.getMsbD_zero] at hbit
    cases hbit
  · intro h
    refine BitVec.eq_of_getMsbD_eq fun qx hqx => ?_
    rw [BitVec.getMsbD_and, BitVec.getMsbD_zero, Bool.and_eq_false_imp]
    intro hcell
    by_contra hm
    exact h ⟨qx, hqx, eq_true_of_ne_false hm, hcell⟩

/-- A sprite row on the grid is its mask XORed into that row. -/
theorem plotRow_of_lt {py : Nat} (hpy : py < 32) (x0 : Nat) (row : Byte)
    (acc : FrameBuffer × Bool) : plotRow x0 py row acc =
      (acc.1.set py (acc.1[py] ^^^ rowMask x0 row),
        acc.2 || acc.1[py] &&& rowMask x0 row != 0#64) := by
  obtain ⟨hcell, hhit⟩ := plotBits_spec x0 py row acc 8
  refine Prod.ext (FrameBuffer.ext_cell fun qx qy hqx hqy => ?_) (Bool.eq_iff_iff.mpr ?_)
  · rw [FrameBuffer.cell_set_xor _ hpy _ _ hqy, getMsbD_rowMask x0 row hqx]
    exact hcell qx qy hqx hqy
  · rw [Bool.or_eq_true, FrameBuffer.row_and_ne_zero_iff _ hpy]
    refine hhit.trans (or_congr_right (exists_congr fun qx => and_congr_right fun hqx => ?_))
    rw [getMsbD_rowMask x0 row hqx, and_iff_right hpy]

/-- A sprite row below the grid draws nothing and collides with nothing. -/
theorem plotRow_of_not_lt {py : Nat} (hpy : ¬ py < 32) (x0 : Nat) (row : Byte)
    (acc : FrameBuffer × Bool) : plotRow x0 py row acc = acc := by
  obtain ⟨hcell, hhit⟩ := plotBits_spec x0 py row acc 8
  refine Prod.ext (FrameBuffer.ext_cell fun qx qy hqx hqy => ?_) (Bool.eq_iff_iff.mpr ?_)
  · have hne : ¬ qy = py := by omega
    refine (hcell qx qy hqx hqy).trans ?_
    rw [decide_eq_false hne, Bool.false_and, Bool.xor_false]
  · exact hhit.trans (or_iff_left fun ⟨_, _, hlt, _⟩ => hpy hlt)

/-- The sprite loops are the row-wise drawing, whatever is drawn already. -/
theorem plotRows_eq_maskDraw (x0 y0 : Nat) (rows : List Byte) (acc : FrameBuffer × Bool) :
    plotRows x0 y0 rows acc = maskDraw x0 y0 rows acc := by
  induction rows generalizing y0 acc with
  | nil => rfl
  | cons row rows ih =>
    rw [plotRows, maskDraw, ih]
    split_ifs with hy
    · rw [plotRow_of_lt hy]
    · rw [plotRow_of_not_lt hy]

/-- Settles O44: the loops agree row by row, on the grid (`plotRow_of_lt`) and below it. -/
theorem pixelLoopIsRowXor : Obligations.PixelLoopIsRowXor := by
  unfold Obligations.PixelLoopIsRowXor
  exact fun fb x0 y0 rows => plotRows_eq_maskDraw x0 y0 rows (fb, false)

end Sys2Proof.Machine

/-!
SUPPORT. Keypad and timers (spec/45_keys_timers.md): SKP and SKNP for a register that names a key and
for one that names none, the key that Fx0A takes, and the timer transfers.
-/

namespace Sys2Proof.Machine

open Sys2Proof.Certificates

/-! ### SKP and SKNP -/

/-- SKP of a register that names key k skips where k is pressed. -/
theorem exec_skp_of_key {x : Reg} {s : State} {k : Fin 16} (h : (s.getV x).toNat = k.val) :
    exec (.skp x) s = skipIf (s.getKey k) s := by
  simp only [exec, execSkp, keyIndex_of _ k h]

/-- SKNP of a register that names key k skips where k is not pressed. -/
theorem exec_sknp_of_key {x : Reg} {s : State} {k : Fin 16} (h : (s.getV x).toNat = k.val) :
    exec (.sknp x) s = skipIf (!s.getKey k) s := by
  simp only [exec, execSknp, keyIndex_of _ k h]

/-- SKP faults where its register names no key. -/
theorem exec_skp_of_ge {x : Reg} {s : State} (h : 16 ≤ (s.getV x).toNat) :
    exec (.skp x) s = takeFault .invalidKeyIndex (.skp x) s := by
  simp only [exec, execSkp, keyIndex_none _ h]

/-- SKNP faults where its register names no key. -/
theorem exec_sknp_of_ge {x : Reg} {s : State} (h : 16 ≤ (s.getV x).toNat) :
    exec (.sknp x) s = takeFault .invalidKeyIndex (.sknp x) s := by
  simp only [exec, execSknp, keyIndex_none _ h]

/-- A write of PC changes no other part. -/
theorem keeps_of_pc (s : State) (pc : Word) : Keeps [] s { s with pc := pc } :=
  ⟨fun _ _ => rfl, fun _ _ => rfl, fun _ => rfl, fun _ => ⟨rfl, rfl⟩, fun _ => rfl, fun _ => rfl,
    fun _ => rfl, fun _ => rfl, fun _ => rfl, fun _ => rfl⟩

/-- A skip on a condition: two bytes further where it holds, and nothing but PC changed. -/
theorem skipIf_keeps (c : Bool) (s : State) :
    ∃ t, skipIf c s = .next t ∧ Keeps [] s t ∧
      t.pc = if c = true then s.pc + 4#16 else s.pc + 2#16 :=
  ⟨_, skipIf_next c s, keeps_of_pc s _, rfl⟩

/-- A skip on the negation of a condition: two bytes further where the condition fails. -/
theorem skipIf_not_keeps (c : Bool) (s : State) :
    ∃ t, skipIf (!c) s = .next t ∧ Keeps [] s t ∧
      t.pc = if c = true then s.pc + 2#16 else s.pc + 4#16 := by
  obtain ⟨t, ht, hkeeps, hpc⟩ := skipIf_keeps (!c) s
  refine ⟨t, ht, hkeeps, hpc.trans ?_⟩
  cases c <;> rfl

/-- Settles O46: a register up to 15 names a key, whose flag decides the skip; one above names none,
and both fault. -/
theorem keySkips : Obligations.KeySkips := by
  unfold Obligations.KeySkips
  intro x s
  refine ⟨reads_of_encode rfl rfl, reads_of_encode rfl rfl, fun k hk => ?_,
    fun h => ⟨exec_skp_of_ge h, exec_sknp_of_ge h⟩⟩
  rw [exec_skp_of_key hk, exec_sknp_of_key hk]
  exact ⟨skipIf_keeps _ s, skipIf_not_keeps _ s⟩

/-! ### LD Vx, K -/

/-- Fx0A takes the pressed key below which none is pressed, and clears its flag. -/
theorem exec_ldVxK_of_lowest {s : State} {k : Fin 16} (x : Reg) (h : s.getKey k = true)
    (hlow : ∀ j, j < k → s.getKey j = false) : exec (.ldVxK x) s =
      .next ((s.advance.setV x (BitVec.ofNat 8 k.val)).setKey k false) := by
  simp only [exec, execLdVxK, firstPressed_eq_some h hlow]

/-- A key number fits a register. -/
theorem keyByte_toNat (k : Fin 16) : (BitVec.ofNat 8 k.val).toNat = k.val :=
  (BitVec.toNat_ofNat ..).trans (Nat.mod_eq_of_lt (by omega))

/-- Settles O47: the scan finds the lowest pressed key (`exec_ldVxK_of_lowest`), or none, and then the
advance is taken back (`exec_ldVxK_of_no_key`). -/
theorem keyWaitTakesLowest : Obligations.KeyWaitTakesLowest := by
  unfold Obligations.KeyWaitTakesLowest
  intro x s
  refine ⟨reads_of_encode rfl rfl, fun k hk hlow => ?_, exec_ldVxK_of_no_key x⟩
  refine ⟨_, exec_ldVxK_of_lowest x hk hlow, rfl, ?_, fun hx => getV_vF_advance_setV hx s _,
    fun j => getKey_setKey _ k j false⟩
  rw [getV_setKey, getV_setV_self, keyByte_toNat]

/-! ### Timer transfers -/

/-- Settles O48: each is one write after the advance; what it leaves is its frame (O18). -/
theorem timerTransfers : Obligations.TimerTransfers := by
  unfold Obligations.TimerTransfers
  intro x s
  obtain ⟨hv, -, -⟩ := instructionFrames (.ldVxDt x) s _ rfl
  obtain ⟨hdt, -, -⟩ := instructionFrames (.ldDtVx x) s _ rfl
  obtain ⟨hst, -, -⟩ := instructionFrames (.ldStVx x) s _ rfl
  exact ⟨reads_of_encode rfl rfl, reads_of_encode rfl rfl, reads_of_encode rfl rfl,
    ⟨_, rfl, rfl, hv, fun r => getV_setV _ _ _ _⟩, ⟨_, rfl, rfl, hdt, rfl⟩,
    ⟨_, rfl, rfl, hst, rfl⟩⟩

end Sys2Proof.Machine

/-!
SUPPORT. Faults and the transactions other than Step (spec/60_exceptions.md): which fault an
instruction latches, the Ticks, the key events, and the three reads.
-/

namespace Sys2Proof.Machine

/-! ### Fault conditions (R280, R285) -/

/-- The latch after an instruction run with no fault: the record of its fault condition, if any. -/
theorem exec_latch {i : Instr} {s t : State} (hfault : s.fault = none) (h : exec i s = .next t) :
    t.fault = (faultCondition i s).map fun kind => ⟨kind, some (encode i), s.pc⟩ := by
  obtain ⟨kind, hkind, rfl⟩ | ⟨hnone, hkept, -⟩ := exec_cases h
  · rw [hkind]
    rfl
  · rw [hnone, hkept, hfault]
    rfl

/-- Settles O11: an instruction takes the fault whose condition holds, or completes with none holding
and the latch as it was (`exec_latch`); the codes are read off. -/
theorem faultConditionsExact : Obligations.FaultConditionsExact :=
  ⟨fun _ _ _ => exec_latch, rfl, rfl, rfl, rfl, rfl⟩

/-! ### Ticks (R291, R293) -/

/-- Settles O50: each timer is counted down k times (`ticks_eq`). -/
theorem ticksCountDown : Obligations.TicksCountDown := by
  unfold Obligations.TicksCountDown
  intro k s hfault
  rw [ticks_eq k hfault]
  exact ⟨iterate_countDown_toNat k _, iterate_countDown_toNat k _⟩

/-- A write of the two timers changes no other part. -/
theorem keeps_of_timers (s : State) (dt st : Byte) :
    Keeps [.dt, .st] s { s with dt := dt, st := st } := by
  refine ⟨fun _ => byteAt_congr rfl, fun _ => getV_congr rfl, ?_⟩
  simp

/-- Settles O49: a Tick writes the two timers of a core with no fault, and leaves a halted one. -/
theorem tickDecrements : Obligations.TickDecrements := by
  unfold Obligations.TickDecrements
  refine fun s => ⟨fun hfault => ?_, tick_of_fault⟩
  rw [tick_of_no_fault hfault]
  exact ⟨keeps_of_timers s _ _, rfl, rfl, rfl⟩

/-! ### Key events (R296) -/

/-- A write of a key flag changes no other part. -/
theorem keeps_setKey (s : State) (k : Fin 16) (b : Bool) : Keeps [.key] s (s.setKey k b) := by
  simp [Keeps]

/-- Settles O51: a key event is one write of the key's flag, in a run and on its own. -/
theorem keyEventsSetOneFlag : Obligations.KeyEventsSetOneFlag := by
  unfold Obligations.KeyEventsSetOneFlag
  exact ⟨fun _ _ => ⟨rfl, rfl⟩, fun k s => ⟨keeps_setKey s k true, keeps_setKey s k false, rfl, rfl,
    fun j => getKey_setKey s k j true, fun j => getKey_setKey s k j false⟩⟩

/-! ### Reads (R281, R294, R297) -/

/-- Row-major order (spec/10_state.md R33): FB[64 py + px] is the cell of column px and row py. -/
theorem FrameBuffer.flat_eq_cell (fb : FrameBuffer) {px : Nat} (hx : px < 64) (py : Nat) :
    FrameBuffer.flat fb (py * 64 + px) = FrameBuffer.cell fb px py := by
  have hcol : (py * 64 + px) % 64 = px := by omega
  have hrow : (py * 64 + px) / 64 = py := by omega
  rw [FrameBuffer.flat, hcol, hrow]

/-- SOUND is on while ST is not 0. -/
theorem readSound_eq (s : State) : readSound s = decide (s.st ≠ 0#8) := (decide_not ..).symm

theorem length_readFB (s : State) : (readFB s).length = 2048 := by simp [readFB]

/-- ReadFB answers FB[i] at index i. -/
theorem readFB_getElem? {i : Nat} (h : i < 2048) (s : State) :
    (readFB s)[i]? = some (FrameBuffer.flat s.fb i) := by
  rw [readFB, List.getElem?_map, List.getElem?_range h]
  rfl

/-- Settles O57: each read answers from the core and hands the run back. -/
theorem readsChangeNothing : Obligations.ReadsChangeNothing := by
  unfold Obligations.ReadsChangeNothing
  intro z
  rw [← readSound_eq]
  refine ⟨rfl, rfl, readFB z.core, rfl, length_readFB _, fun px py hx hy => ?_⟩
  rw [readFB_getElem? (by omega), FrameBuffer.flat_eq_cell _ hx]

end Sys2Proof.Machine

/-!
SUPPORT. Load and Reset (spec/70_reset_and_hazards.md R320, R322, R323): what Load puts in memory, and
the stage that keeps a started run from a second Load.
-/

namespace Sys2Proof.Machine

/-! ### A run that has started (R323) -/

/-- A Step or a Load that answers starts the run. -/
theorem started_of_stepOrLoad {z z' : Session} {tr : Transaction} {resp : Response}
    (htr : tr = .step ∨ ∃ rom, tr = .load rom) (h : z.apply tr = .next (resp, z')) :
    z'.stage = .started := by
  obtain rfl | ⟨rom, rfl⟩ := htr
  · obtain ⟨t, -, rfl⟩ := sessionStep_next h
    rfl
  · obtain ⟨-, rfl⟩ := load_next h
    rfl

/-- Only Reset makes a started run fresh again. -/
theorem apply_keeps_started {z z' : Session} {tr : Transaction} {resp : Response}
    (hreset : tr ≠ .reset) (hstage : z.stage = .started) (h : z.apply tr = .next (resp, z')) :
    z'.stage = .started := by
  cases tr with
  | reset => exact absurd rfl hreset
  | load rom => exact started_of_stepOrLoad (.inr ⟨rom, rfl⟩) h
  | step => exact started_of_stepOrLoad (.inl rfl) h
  | tick | keyDown k | keyUp k | readFB | readSound | readFault => cases h; exact hstage

/-- A schedule that does not stop: its first transaction answers, and the rest does not stop. -/
theorem run_cons_some {z z'' : Session} {tr : Transaction} {trs : List Transaction}
    (h : z.run (tr :: trs) = some z'') :
    ∃ resp z', z.apply tr = .next (resp, z') ∧ z'.run trs = some z'' := by
  unfold Session.run at h
  split at h
  · exact ⟨_, _, ‹_›, h⟩
  · cases h
  · cases h

/-- A schedule without a Reset leaves a started run started. -/
theorem run_keeps_started {trs : List Transaction} (hreset : .reset ∉ trs) {z z'' : Session}
    (hstage : z.stage = .started) (h : z.run trs = some z'') : z''.stage = .started := by
  induction trs generalizing z with
  | nil => cases h; exact hstage
  | cons tr trs ih =>
    obtain ⟨resp, z', happly, hrun⟩ := run_cons_some h
    have htr : tr ≠ .reset := (List.ne_of_not_mem_cons hreset).symm
    exact ih (List.not_mem_of_not_mem_cons hreset) (apply_keeps_started htr hstage happly) hrun

/-- A Load in a started run is refused. -/
theorem apply_load_of_started {z : Session} (hstage : z.stage = .started) (rom : List Byte) :
    z.apply (.load rom) = .refused .loadAfterStart := by
  simp only [Session.apply, Session.load, hstage]

/-- Settles O56: the first transaction starts the run, the schedule leaves it started, by induction on
its transactions (`run_keeps_started`), and there a Load is refused. -/
theorem secondLoadRefused : Obligations.SecondLoadRefused := by
  unfold Obligations.SecondLoadRefused
  intro z z' resp first trs rom hfirst hreset happly z'' hrun
  exact apply_load_of_started
    (run_keeps_started hreset (started_of_stepOrLoad hfirst happly) hrun) rom

/-! ### Load (R322) -/

/-- Load accepts a ROM of at most 3584 bytes and stores it at 0x200. -/
theorem loadRom_of_le {rom : List Byte} (h : rom.length ≤ 3584) (s : State) :
    loadRom rom s = (.ok, s.storeBytes 0x200 rom) := if_pos h

/-- A larger ROM is answered RomTooLarge, with nothing changed. -/
theorem loadRom_of_gt {rom : List Byte} (h : 3584 < rom.length) (s : State) :
    loadRom rom s = (.romTooLarge, s) := if_neg (Nat.not_le_of_gt h)

/-- A store changes memory alone. -/
theorem keeps_storeBytes (s : State) (a : Nat) (ws : List Byte) :
    Keeps [.mem] s (s.storeBytes a ws) := by
  simp [Keeps]

/-- Settles O53: a ROM of at most 3584 bytes ends at 4096 or before, so each of its bytes exists. -/
theorem loadCopiesRom : Obligations.LoadCopiesRom := by
  unfold Obligations.LoadCopiesRom
  refine fun rom s => ⟨fun h => ?_, fun h => loadRom_of_gt h s⟩
  have hfits : 0x200 + rom.length ≤ 4096 := by omega
  exact ⟨_, loadRom_of_le h s, keeps_storeBytes s _ rom, rfl,
    fun k hk => byteAt_storeBytes_add hfits hk s, fun a ha => byteAt_of_writeBytes rfl hfits ha⟩

/-- Load in a fresh run starts it where the ROM fits. -/
theorem apply_load_of_le {z : Session} {rom : List Byte} (hstage : z.stage = .fresh)
    (h : rom.length ≤ 3584) :
    z.apply (.load rom) = .next (.done, ⟨.started, z.core.storeBytes 0x200 rom⟩) := by
  simp only [Session.apply, Session.load, hstage, loadRom_of_le h]

/-- Load in a fresh run ends it where the ROM is too large. -/
theorem apply_load_of_gt {z : Session} {rom : List Byte} (hstage : z.stage = .fresh)
    (h : 3584 < rom.length) : z.apply (.load rom) = .fault .romTooLarge := by
  simp only [Session.apply, Session.load, hstage, loadRom_of_gt h]

/-- Settles O54: on a fresh run Load is `loadRom`, whose answer the ROM's length decides. -/
theorem loadStartsRun : Obligations.LoadStartsRun := by
  unfold Obligations.LoadStartsRun
  exact fun rom z hstage => ⟨fun h => ⟨_, loadRom_of_le h z.core, apply_load_of_le hstage h⟩,
    apply_load_of_gt hstage⟩

/-! ### Reset (R320) -/

/-- Reset leaves the reset state but for the count of draws. -/
theorem keeps_resetCore (s : State) : Keeps [.draws] State.reset (resetCore s) := by
  refine ⟨fun _ => byteAt_congr rfl, fun _ => getV_congr rfl, ?_⟩
  simp [resetCore]

/-- Settles O52: the core is `resetCore`'s, and the run is fresh, so a ROM that fits is accepted. -/
theorem resetRestarts : Obligations.ResetRestarts := by
  unfold Obligations.ResetRestarts
  exact fun z => ⟨_, rfl, rfl, rfl, rfl, keeps_resetCore z.core, rfl,
    fun _ h => ⟨_, apply_load_of_le rfl h⟩⟩

end Sys2Proof.Machine
